-- ==== Sys2Proof/Word.lean ====
section
/-! DEFINITION. The widths of the block (spec/00_scope.md R10, R14): bytes, command words and pixels. -/

namespace Sys2Proof

/-- An 8-bit value: a colour channel, a mask or an output byte (R10). -/
abbrev Byte := BitVec 8

/-- A 64-bit command word (R10, R60). -/
abbrev CmdWord := BitVec 64

/-- A pixel `(r, g, b)` of three 8-bit channels (R10, R14). -/
structure Pixel where
  r : Byte
  g : Byte
  b : Byte
  deriving DecidableEq, Repr

end Sys2Proof
end

