-- ==== Sys2Proof/Config.lean ====
section
/-! DEFINITION. The elaboration-time parameters (spec/00_scope.md R5 to R9): a configuration is a structure whose fields
carry the conditions of spec/60_exceptions.md R141 as proofs, so an ill-formed one cannot be written down; `elaborate`
checks raw values and refuses them with the condition they violate. The three OPEN parameters of THE block (GAMMA,
FRAME_CAP, MAX_WIDTH: spec/92_eei_decisions.md D4, D5, D6) are opaque constants: nothing can be proved of them beyond
the range the spec gives. -/

namespace Sys2Proof

/-- The gamma table GAMMA: 256 constant bytes with the three properties the source states (R7, R21, R84).
The default values below serve only to show that an admissible table exists (the identity table T_ID of
spec/95_test_vectors.md); they are not the hardware's table. -/
structure GammaTable where
  /-- The 256 entries, entry `v` at position `v`. -/
  entries : List Byte := (List.range 256).map (BitVec.ofNat 8)
  /-- The table is total on 8-bit values. -/
  length_eq : entries.length = 256 := by simp
  /-- P1: the table is non-decreasing. -/
  monotone : ∀ v w : Nat, v ≤ w → w < 256 → (entries.getD v 0).toNat ≤ (entries.getD w 0).toNat := by
    intro v w hvw hw
    have hv : v < 256 := by omega
    simp [List.getD_eq_getElem?_getD, hv, hw]
    omega
  /-- P2: `GAMMA(0) = 0`. -/
  at_zero : entries.getD 0 0 = 0 := by decide
  /-- P3: `GAMMA(255) = 255`. -/
  at_max : entries.getD 255 0 = 255 := by decide
  deriving DecidableEq, Repr, Inhabited

/-- A configuration of the block (R5 to R9), with R141's conditions as proofs. -/
structure Config where
  /-- BIT_DEPTH, the number of bit-planes (R5). This hardware's value is 6: see `Config.block`. -/
  bitDepth : Nat
  bitDepth_ok : 1 ≤ bitDepth ∧ bitDepth ≤ 7
  /-- PANEL_HEIGHT, whose only legal value is 32 (R6). -/
  panelHeight : Nat
  panelHeight_ok : panelHeight = 32
  /-- GAMMA (R7). -/
  gamma : GammaTable
  /-- FRAME_CAP, a 32-bit unsigned value (R8). -/
  frameCap : Nat
  frameCap_ok : frameCap < 2 ^ 32
  /-- MAX_WIDTH, the largest frame width FB holds (R9). -/
  maxWidth : Nat
  maxWidth_ok : 1 ≤ maxWidth ∧ maxWidth ≤ 65535
  deriving DecidableEq, Repr

/-- The number of row-pairs, `HALF = PANEL_HEIGHT / 2` (R6). -/
def Config.half (c : Config) : Nat := c.panelHeight / 2

/-- The block's gamma table: OPEN (R7, D4). -/
opaque Config.openGamma : GammaTable

/-- The block's frame cap: OPEN, any 32-bit value (R8, D5). -/
opaque Config.openFrameCap : BitVec 32

/-- The block's maximum width less one: OPEN, so that MAX_WIDTH is any value from 1 to 65535 (R9, D6). -/
opaque Config.openMaxWidthLessOne : Fin 65535

/-- The configuration of the block: depth 6 and height 32 (R5, R6), the rest open (R7, R8, R9). -/
def Config.block : Config where
  bitDepth := 6
  bitDepth_ok := by decide
  panelHeight := 32
  panelHeight_ok := rfl
  gamma := Config.openGamma
  frameCap := Config.openFrameCap.toNat
  frameCap_ok := Config.openFrameCap.isLt
  maxWidth := Config.openMaxWidthLessOne.val + 1
  maxWidth_ok := ⟨by omega, by have := Config.openMaxWidthLessOne.isLt; omega⟩

/-- Parameter values before they are checked. -/
structure RawConfig where
  bitDepth : Nat
  panelHeight : Nat
  gamma : List Byte
  frameCap : Nat
  maxWidth : Nat
  deriving DecidableEq, Repr

/-- Why a configuration is refused: the cause ConfigurationError (cause 0x1, R140), by the condition of R141 that fails.
Raised by `elaborate` only, never by a command. SAFE: no block exists. -/
inductive ConfigurationError where
  /-- BIT_DEPTH is 0 or above 7 ("invalid bit depth (0 or >7) supplied to the mask generator; fatal at startup"). -/
  | bitDepth
  /-- PANEL_HEIGHT is not 32. -/
  | panelHeight
  /-- MAX_WIDTH is 0 or above 65535. -/
  | maxWidth
  /-- FRAME_CAP is above 2^32 - 1. -/
  | frameCap
  /-- GAMMA is no 256-entry table with the properties P1 to P3 of R7. -/
  | gamma
  deriving DecidableEq, Repr

/-- Each entry is at most the next one. -/
def stepwiseMonotone : List Byte → Bool
  | a :: b :: rest => decide (a.toNat ≤ b.toNat) && stepwiseMonotone (b :: rest)
  | _ => true

theorem getD_le_getD_of_stepwiseMonotone : ∀ (l : List Byte), stepwiseMonotone l = true →
    ∀ v w : Nat, v ≤ w → w < l.length → (l.getD v 0).toNat ≤ (l.getD w 0).toNat
  | [], _, v, w, _, hw => by simp at hw
  | [a], _, v, w, hvw, hw => by
    have hw0 : w = 0 := by simpa using hw
    have hv0 : v = 0 := by omega
    subst hw0; subst hv0; exact Nat.le_refl _
  | a :: b :: rest, h, v, w, hvw, hw => by
    simp only [stepwiseMonotone, Bool.and_eq_true, decide_eq_true_eq] at h
    have ih := getD_le_getD_of_stepwiseMonotone (b :: rest) h.2
    cases w with
    | zero =>
      have hv0 : v = 0 := by omega
      subst hv0; exact Nat.le_refl _
    | succ w =>
      have hw' : w < (b :: rest).length := by simpa using hw
      cases v with
      | zero =>
        have h0 := ih 0 w (Nat.zero_le _) hw'
        simp only [List.getD_cons_zero, List.getD_cons_succ] at h0 ⊢
        exact Nat.le_trans h.1 h0
      | succ v =>
        have h1 := ih v w (by omega) hw'
        simpa only [List.getD_cons_succ] using h1

/-- Elaboration (R141, R161): the checks in R141's order; the configuration, or the first condition that fails. -/
def elaborate (raw : RawConfig) : Except ConfigurationError Config :=
  if hD : ¬(1 ≤ raw.bitDepth ∧ raw.bitDepth ≤ 7) then .error .bitDepth
  else if hH : ¬raw.panelHeight = 32 then .error .panelHeight
  else if hW : ¬(1 ≤ raw.maxWidth ∧ raw.maxWidth ≤ 65535) then .error .maxWidth
  else if hC : ¬raw.frameCap < 2 ^ 32 then .error .frameCap
  else if hG : raw.gamma.length = 256 ∧ stepwiseMonotone raw.gamma = true ∧
      raw.gamma.getD 0 0 = 0 ∧ raw.gamma.getD 255 0 = 255 then
    .ok {
      bitDepth := raw.bitDepth
      bitDepth_ok := Decidable.not_not.mp hD
      panelHeight := raw.panelHeight
      panelHeight_ok := Decidable.not_not.mp hH
      gamma := {
        entries := raw.gamma
        length_eq := hG.1
        monotone := fun v w hvw hw =>
          getD_le_getD_of_stepwiseMonotone raw.gamma hG.2.1 v w hvw (hG.1 ▸ hw)
        at_zero := hG.2.2.1
        at_max := hG.2.2.2 }
      frameCap := raw.frameCap
      frameCap_ok := Decidable.not_not.mp hC
      maxWidth := raw.maxWidth
      maxWidth_ok := Decidable.not_not.mp hW }
  else .error .gamma

end Sys2Proof
end

