-- ==== Sys2Proof/Machine/State.lean ====
section
/-! DEFINITION. The state of the block as plain data (spec/10_state.md R20 to R33, spec/20_memory.md R40 to R46), the
reasons a step can stop, and the state after reset. -/

namespace Sys2Proof.Machine

/-- The coordinates of a frame-buffer cell: column `x`, row `y` (R14, R41). -/
structure Coord where
  x : Nat
  y : Nat
  deriving DecidableEq, Repr

/-- Row-major order of the cells (R43). -/
def Coord.before (a b : Coord) : Bool :=
  decide (a.y < b.y) || (decide (a.y = b.y) && decide (a.x < b.x))

/-- The frame buffer FB (R41): the cells that hold a pixel. A cell that is not listed holds no value (R42). -/
abbrev Memory := List (Coord × Pixel)

/-- The canonical form: coordinates strictly rising in row-major order. -/
abbrev Memory.wf (m : Memory) : Prop := m.Pairwise fun a b => a.1.before b.1 = true

/-- What the host does to the block's ports between commands: it issues a command word (R60), or applies reset (R160). -/
inductive HostAction where
  | command (cmd : CmdWord)
  | reset
  deriving DecidableEq, Repr

/-- The causes of R140. -/
inductive FaultCause where
  /-- Cause 0x1: a configuration is refused (R141). Raised by `elaborate` only; never in STATUS. -/
  | configurationError
  /-- Cause 0x2: an ENCF whose height is not PANEL_HEIGHT (R142). -/
  | frameDimensionError
  /-- Cause 0x3: the host reports a source failure by ABORT (R143). -/
  | sourceReadError
  /-- Cause 0x4: a word that decodes to no command (R144). -/
  | illegalCommand
  /-- Cause 0x5: an operand out of range for PMASK, FBWR or ENCF (R145). -/
  | illegalOperand
  deriving DecidableEq, Repr

/-- The reasons for which a step has no next state. The faults of R140 are not among them: they have an entry the spec
describes (R148), which is a next state. -/
inductive Fault where
  /-- The model-only fault of R146: ENCF meets the frame-buffer cell (x, y), which no FBWR has written since reset.
  SAFE: a device returns some pixel and goes on, the model stops. -/
  | uninitialisedRead (x y : Nat)
  deriving DecidableEq, Repr

/-- The reasons for which a command has no meaning. -/
inductive Refusal where
  /-- Raised by an arm of `exec` whose command has no meaning in the model. No arm is such: every row has its meaning.
  SAFE: the model stops. -/
  | notModelled (mnemonic : String)
  deriving DecidableEq, Repr

/-- The state of the block (R20), with what its host side holds. -/
structure State where
  /-- The configuration: the constant table GAMMA, the depth that fixes MASK, and the other parameters (R20, R21, R22).
  Fixed at elaboration: no command and no reset changes it (R161). -/
  cfg : Config
  /-- FB, the frame buffer (R41, R42). -/
  fb : Memory
  /-- ACC, the uncommitted output bytes of the run (R44). -/
  acc : List Byte
  /-- FRAMES, the frames encoded in the run (R26). -/
  frames : BitVec 32
  /-- STATUS: FLT in bit 0, RV in bit 1, CAUSE in bits 7 to 4, bits 3 and 2 reserved (R25). -/
  status : BitVec 8
  /-- RES, which holds a value for the host only while RV is 1 (R24). -/
  res : Byte
  /-- FINFO, the word of the fault (R28). -/
  finfo : CmdWord
  /-- SINK, the artifacts delivered so far, oldest first: kept by the host, part of the observation (R46). -/
  sink : List (List Byte)
  /-- THE MODEL'S OWN: what the host will do, in issue order (R50, R60). -/
  hostIn : List HostAction
  deriving DecidableEq, Repr

/-- What a step or a command answers. -/
abbrev Result := Host.Outcome State Fault Refusal

/-- The machine right after reset (R33, R160), before any artifact is delivered and with nothing issued yet.
DESIGN CHOICE (UNSAFE, log entry 2): RES is 0; the spec gives it no value at reset, and no port read returns it while RV
is 0. -/
def State.reset : State where
  cfg := Config.block
  fb := []
  acc := []
  frames := 0
  status := 0
  res := 0
  finfo := 0
  sink := []
  hostIn := []

end Sys2Proof.Machine
end

