-- ==== Sys2Proof/Machine/Flags.lean ====
section
/-! DEFINITION. The fields of STATUS and every way a command writes them (spec/10_state.md R25, R30; spec/60_exceptions.md
R140, R148). The block has no arithmetic flags (R30). -/

namespace Sys2Proof.Machine

/-- STATUS.FLT, bit 0: the block is in the fault state. -/
def statusFlt (status : BitVec 8) : Bool := status.getLsbD 0

/-- STATUS.RV, bit 1: RES holds a result. -/
def statusRv (status : BitVec 8) : Bool := status.getLsbD 1

/-- STATUS.CAUSE, bits 7 to 4. -/
def statusCause (status : BitVec 8) : BitVec 4 := status.extractLsb' 4 4

/-- The reserved bits 3 and 2. -/
def statusReserved (status : BitVec 8) : BitVec 2 := status.extractLsb' 2 2

/-- STATUS of a state in its fields. -/
def State.flt (s : State) : Bool := statusFlt s.status
def State.rv (s : State) : Bool := statusRv s.status
def State.cause (s : State) : BitVec 4 := statusCause s.status

/-- The cause codes (R140). -/
def FaultCause.code : FaultCause → BitVec 4
  | .configurationError => 0x1
  | .frameDimensionError => 0x2
  | .sourceReadError => 0x3
  | .illegalCommand => 0x4
  | .illegalOperand => 0x5

/-- `STATUS.RV <- 1`, the other bits unchanged. -/
def setRv (status : BitVec 8) : BitVec 8 := status ||| 0x02

/-- Fault entry in STATUS: `FLT <- 1`, `CAUSE <- code`, `RV <- 0`; no rule writes the reserved bits (R25, R148). -/
def enterFault (code : BitVec 4) (status : BitVec 8) : BitVec 8 := code ++ statusReserved status ++ 0b01#2

end Sys2Proof.Machine
end

