-- ==== Sys2Proof/Syntax.lean ====
section
/-! DEFINITION. The commands of the block: one constructor per row of spec/opcode_table.json, each operand with the
width of its field (spec/30_encoding.md R62 to R69). -/

namespace Sys2Proof

/-- The eight commands (R2, R70). Operands stand in the order of the assembly syntax (R74). -/
inductive Instr where
  /-- GLUT: gamma lookup of one raw channel value (R80). -/
  | glut (v : Byte)
  /-- BITX: test a corrected value `c` against a mask `m` (R93). -/
  | bitx (c m : Byte)
  /-- PMASK: read plane mask `j` (R92). -/
  | pmask (j : BitVec 3)
  /-- PACK: pack pixels `a` (top half) and `b` (bottom half) under a mask `m` (R102). -/
  | pack (m : Byte) (a b : Pixel)
  /-- ENCF: encode the frame in FB; `h` is the height the host reports, `w` the width (R116). -/
  | encf (h w : BitVec 16)
  /-- COMMIT: deliver the run to the sink (R125). -/
  | commit
  /-- ABORT: the host reports that the frame source failed (R126). -/
  | abort
  /-- FBWR: write pixel `p` at column `x`, row `y` of the frame buffer (R115). -/
  | fbwr (x : BitVec 16) (y : Byte) (p : Pixel)
  deriving DecidableEq, Repr

end Sys2Proof
end

