-- ==== Sys2Proof/WellFormed.lean ====
section
/-! DEFINITION. What a well-formed command and a well-formed line of assembly is: every operand fits its field
(spec/30_encoding.md R62 to R69, R74), and a pseudo-instruction meets its condition (R75). An `Instr` holds its operands at
the widths of their fields, so each one is well-formed; the checks have work to do on an assembly line, whose operands are
numbers of any size. An operand that fits its field and is out of range for the command is well-formed (R73). -/

namespace Sys2Proof

/-- An operand fits a field of `width` bits (R69: every field is an unsigned integer). -/
def fits (width value : Nat) : Bool := decide (value < 2 ^ width)

/-- The operands of a command with the widths of their fields (R62 to R68). -/
def Instr.operands : Instr → List (Nat × Nat)
  | .glut v => [(8, v.toNat)]
  | .bitx c m => [(8, m.toNat), (8, c.toNat)]
  | .pmask j => [(3, j.toNat)]
  | .pack m a b => [(8, m.toNat), (8, a.r.toNat), (8, a.g.toNat), (8, a.b.toNat),
      (8, b.r.toNat), (8, b.g.toNat), (8, b.b.toNat)]
  | .encf h w => [(16, h.toNat), (16, w.toNat)]
  | .commit => []
  | .abort => []
  | .fbwr x y p => [(16, x.toNat), (8, y.toNat), (8, p.r.toNat), (8, p.g.toNat), (8, p.b.toNat)]

/-- Every operand fits its field. -/
def Instr.wellFormed (i : Instr) : Bool := i.operands.all fun o => fits o.1 o.2

/-- A pixel as the assembler reads it: three numbers. -/
structure AsmPixel where
  r : Nat
  g : Nat
  b : Nat
  deriving DecidableEq, Repr

/-- A line of assembly (R74) or a pseudo-instruction (R75), operands in the order of the syntax. -/
inductive AsmLine where
  | glut (v : Nat)
  | bitx (c m : Nat)
  | pmask (j : Nat)
  | pack (m : Nat) (a b : AsmPixel)
  | fbwr (x y : Nat) (p : AsmPixel)
  | encf (h w : Nat)
  | commit
  | abort
  /-- `.cmd n`: the raw word `n`. -/
  | cmd (n : Nat)
  /-- `ENCFRAME w` = `ENCF 32, w`. -/
  | encframe (w : Nat)
  /-- `PACKP j, a, b` = `PACK MASK[j], a, b`. -/
  | packp (j : Nat) (a b : AsmPixel)
  /-- `FBFILL w, p`: the whole frame of width `w` in one colour. -/
  | fbfill (w : Nat) (p : AsmPixel)
  /-- `FBCOL x, top, bottom`: one column, one colour a half. -/
  | fbcol (x : Nat) (top bottom : AsmPixel)
  deriving DecidableEq, Repr

/-- Each channel fits 8 bits. -/
def AsmPixel.wellFormed (p : AsmPixel) : Bool := fits 8 p.r && fits 8 p.g && fits 8 p.b

/-- What the assembler accepts (R74, R75); the conditions of PACKP, FBFILL and FBCOL read the configuration. -/
def AsmLine.wellFormed (c : Config) : AsmLine → Bool
  | .glut v => fits 8 v
  | .bitx v m => fits 8 v && fits 8 m
  | .pmask j => fits 3 j
  | .pack m a b => fits 8 m && a.wellFormed && b.wellFormed
  | .fbwr x y p => fits 16 x && fits 8 y && p.wellFormed
  | .encf h w => fits 16 h && fits 16 w
  | .commit => true
  | .abort => true
  | .cmd n => fits 64 n
  | .encframe w => fits 16 w
  | .packp j a b => decide (j < c.bitDepth) && a.wellFormed && b.wellFormed
  | .fbfill w p => decide (1 ≤ w) && decide (w ≤ c.maxWidth) && p.wellFormed
  | .fbcol x top bottom => decide (x < c.maxWidth) && top.wellFormed && bottom.wellFormed

end Sys2Proof
end

