-- ==== Sys2Proof/Decode.lean ====
section
/-! DEFINITION. The decoder and the encoder of command words (spec/30_encoding.md R60 to R72) and the byte order of a
word carried as bytes (spec/20_memory.md R47). -/

namespace Sys2Proof

/-- One row of the opcode map (R70): a word selects the row when its bits under `mask` are `pattern`. -/
structure Row where
  mask : CmdWord
  pattern : CmdWord
  deriving DecidableEq, Repr

/-- `(CMD & mask) == match` (R70). -/
def Row.selectedBy (r : Row) (w : CmdWord) : Bool := w &&& r.mask == r.pattern

/-- The rows of the opcode map (R70). -/
def rowGlut : Row := ⟨0xFFFFFFFFFFFFFF00, 0x1000000000000000⟩
def rowBitx : Row := ⟨0xFFFFFFFFFFFF0000, 0x2000000000000000⟩
def rowPmask : Row := ⟨0xFFFFFFFFFFFFFFF8, 0x3000000000000000⟩
def rowPack : Row := ⟨0xFF00000000000000, 0x4000000000000000⟩
def rowEncf : Row := ⟨0xFFFFFFFF00000000, 0x5000000000000000⟩
def rowCommit : Row := ⟨0xFFFFFFFFFFFFFFFF, 0x6000000000000000⟩
def rowAbort : Row := ⟨0xFFFFFFFFFFFFFFFF, 0x7000000000000000⟩
def rowFbwr : Row := ⟨0xFF000000FF000000, 0x8000000000000000⟩

/-- The opcode map (R70). -/
def opcodeMap : List Row :=
  [rowGlut, rowBitx, rowPmask, rowPack, rowEncf, rowCommit, rowAbort, rowFbwr]

/-- The row of a command. -/
def Instr.row : Instr → Row
  | .glut _ => rowGlut
  | .bitx _ _ => rowBitx
  | .pmask _ => rowPmask
  | .pack _ _ _ => rowPack
  | .encf _ _ => rowEncf
  | .commit => rowCommit
  | .abort => rowAbort
  | .fbwr _ _ _ => rowFbwr

/-- Why a word is illegal (R71). -/
inductive IllegalReason where
  /-- OP is 0x0 or one of 0x9 to 0xF. -/
  | undefinedOpcode
  /-- OP is 0x1 to 0x8 and a reserved bit of its format is 1. -/
  | reservedBit
  deriving DecidableEq, Repr

/-- What the decoder answers (R72): a command, or `Illegal` with the ground R71 names. -/
inductive Decoded where
  | command (i : Instr)
  | illegal (why : IllegalReason)
  deriving DecidableEq, Repr

/-- `OP = CMD[63:60]` (R61). -/
def opcode (w : CmdWord) : BitVec 4 := w.extractLsb' 60 4

/-- The pixel whose blue channel lies at bit `lo`, green and red above it (R65, R66). -/
def pixelField (w : CmdWord) (lo : Nat) : Pixel :=
  ⟨w.extractLsb' (lo + 16) 8, w.extractLsb' (lo + 8) 8, w.extractLsb' lo 8⟩

/-- Which ground of R71 makes a word illegal. -/
def illegalReason (w : CmdWord) : IllegalReason :=
  if opcode w == 0 || decide (9 ≤ (opcode w).toNat) then .undefinedOpcode else .reservedBit

/-- The decoder (R69, R70, R72): total, and reading nothing but the word. -/
def decode (w : CmdWord) : Decoded :=
  if rowGlut.selectedBy w then .command (.glut (w.extractLsb' 0 8))
  else if rowBitx.selectedBy w then .command (.bitx (w.extractLsb' 0 8) (w.extractLsb' 8 8))
  else if rowPmask.selectedBy w then .command (.pmask (w.extractLsb' 0 3))
  else if rowPack.selectedBy w then
    .command (.pack (w.extractLsb' 48 8) (pixelField w 24) (pixelField w 0))
  else if rowEncf.selectedBy w then .command (.encf (w.extractLsb' 16 16) (w.extractLsb' 0 16))
  else if rowCommit.selectedBy w then .command .commit
  else if rowAbort.selectedBy w then .command .abort
  else if rowFbwr.selectedBy w then
    .command (.fbwr (w.extractLsb' 40 16) (w.extractLsb' 32 8) (pixelField w 0))
  else .illegal (illegalReason w)

/-- A field's value at its place in a word, bit 0 of the value at bit `lo`. -/
def place {width : Nat} (lo : Nat) (v : BitVec width) : CmdWord := v.setWidth 64 <<< lo

/-- A pixel at its place: blue at bit `lo`, green and red above it (R65, R66). -/
def placePixel (lo : Nat) (p : Pixel) : CmdWord := place (lo + 16) p.r ||| place (lo + 8) p.g ||| place lo p.b

/-- The encoder: the fixed bits of the command's row (OP, and 0 in every reserved bit) and each operand in its field (R62 to
R68). -/
def encode : Instr → CmdWord
  | .glut v => rowGlut.pattern ||| place 0 v
  | .bitx c m => rowBitx.pattern ||| place 8 m ||| place 0 c
  | .pmask j => rowPmask.pattern ||| place 0 j
  | .pack m a b => rowPack.pattern ||| place 48 m ||| placePixel 24 a ||| placePixel 0 b
  | .encf h w => rowEncf.pattern ||| place 16 h ||| place 0 w
  | .commit => rowCommit.pattern
  | .abort => rowAbort.pattern
  | .fbwr x y p => rowFbwr.pattern ||| place 40 x ||| place 32 y ||| placePixel 0 p

/-- A command word carried as bytes: little-endian, byte 0 holds `CMD[7:0]` (R47). -/
def wordBytes (w : CmdWord) : List Byte := (List.range 8).map fun i => w.extractLsb' (8 * i) 8

/-- The first command word of a list of bytes, and the bytes after it (R47). -/
def takeWord : List Byte → Option (CmdWord × List Byte)
  | b0 :: b1 :: b2 :: b3 :: b4 :: b5 :: b6 :: b7 :: rest =>
    some (place 0 b0 ||| place 8 b1 ||| place 16 b2 ||| place 24 b3 ||| place 32 b4 ||| place 40 b5 ||| place 48 b6 |||
      place 56 b7, rest)
  | _ => none

/-- Decode the first command of a list of bytes (none where fewer than eight bytes are left). -/
def decodeBytes (bytes : List Byte) : Option (Decoded × List Byte) :=
  match takeWord bytes with
  | some (w, rest) => some (decode w, rest)
  | none => none

/-- The command word of an opcode-table row's bits: `nbits` of them, the bits above them 0. -/
def tableWord (nbits w : Nat) : CmdWord := BitVec.ofNat 64 (w % 2 ^ nbits)

/-- What the decoder reads from a command whose bits are `w`, laid out as R47 stores them. -/
def decodeTableWord (nbits w : Nat) : Option Instr :=
  match decodeBytes (wordBytes (tableWord nbits w)) with
  | some (.command i, _) => some i
  | _ => none

end Sys2Proof
end

