-- ==== Sys2Proof/Machine/Operands.lean ====
section
/-! DEFINITION. What a command reads from its operands and the constant tables: the gamma lookup (spec/40_gamma_lut.md R81),
the plane masks (spec/41_bitplane.md R90) and the range checks of spec/30_encoding.md R73. Every operand is a field of the
command word (R23); its bits are taken in Sys2Proof/Decode.lean. -/

namespace Sys2Proof.Machine

/-- `correct(v) = GAMMA(v)` (R81): the entry `v` of the constant table. -/
def correct (c : Config) (v : Byte) : Byte := c.gamma.entries.getD v.toNat 0

/-- The plane masks of a depth `d` in the source's words (R90): `1 << (i + (7 - d))` for i from `d` down to 1. -/
def maskSequence (d : Nat) : List Byte :=
  (List.range d).map fun position =>
    let i := d - position
    BitVec.ofNat 8 (1 <<< (i + (7 - d)))

/-- `masks(D)` (R90), which fails with an invalid-configuration error for D = 0 or D > 7. -/
def masks (d : Nat) : Except ConfigurationError (List Byte) :=
  if d = 0 ∨ 7 < d then .error .bitDepth else .ok (maskSequence d)

/-- The constant table MASK (R22). -/
def maskTable (c : Config) : List Byte := maskSequence c.bitDepth

/-- `MASK[j]`; every use has `j < BIT_DEPTH`. -/
def planeMask (c : Config) (j : Nat) : Byte := (maskTable c).getD j 0

/-- The bit test of the extractor (R93): `(C & M) != 0`. -/
def bitTest (v m : Byte) : Bool := v &&& m != 0

/-- PMASK's J names a plane (R92). -/
def planeInRange (c : Config) (j : BitVec 3) : Bool := decide (j.toNat < c.bitDepth)

/-- FBWR's coordinates lie in FB (R41, R115). -/
def coordInRange (c : Config) (x : BitVec 16) (y : Byte) : Bool :=
  decide (x.toNat < c.maxWidth) && decide (y.toNat < c.panelHeight)

/-- ENCF's H is the panel's height (R118). -/
def heightAccepted (c : Config) (h : BitVec 16) : Bool := decide (h.toNat = c.panelHeight)

/-- ENCF's W fits FB (R119). -/
def widthAccepted (c : Config) (w : BitVec 16) : Bool := decide (w.toNat ≤ c.maxWidth)

end Sys2Proof.Machine
end

