-- ==== Sys2Proof/Machine/Ops.lean ====
section
/-! DEFINITION. The named operations over the block's memories, registers and ports: FBRead, FBWrite and Append
(spec/20_memory.md R41 to R44), the result register (spec/10_state.md R24), the status port (R29), fault entry and the
fault state (spec/60_exceptions.md R148, R149), reset (spec/70_reset_and_hazards.md R160) and the command port
(spec/30_encoding.md R60). -/

namespace Sys2Proof.Machine

/-- `FBRead(x, y)`: the pixel of a cell, or none where no FBWR has written it (R42). -/
def Memory.read : Memory → Coord → Option Pixel
  | [], _ => none
  | (k, p) :: rest, at_ => if k = at_ then some p else Memory.read rest at_

/-- `FBWrite(x, y, p)`: one whole pixel (R49), kept in the canonical form. -/
def Memory.write : Memory → Coord → Pixel → Memory
  | [], at_, p => [(at_, p)]
  | (k, q) :: rest, at_, p =>
    if k = at_ then (at_, p) :: rest
    else if at_.before k then (at_, p) :: (k, q) :: rest
    else (k, q) :: Memory.write rest at_ p

/-- `FB[x, y] <- p`. -/
def State.writePixel (at_ : Coord) (p : Pixel) (s : State) : State := { s with fb := s.fb.write at_ p }

/-- `RES <- v; STATUS.RV <- 1` (R24). -/
def State.writeResult (v : Byte) (s : State) : State := { s with res := v, status := setRv s.status }

/-- `ACC <- ACC ++ out; FRAMES <- FRAMES + 1` (R116). -/
def State.appendFrame (out : List Byte) (s : State) : State :=
  { s with acc := s.acc ++ out, frames := s.frames + 1 }

/-- `SINK <- SINK ++ [ACC]; ACC <- []; FRAMES <- 0` (R125). -/
def State.deliver (s : State) : State := { s with sink := s.sink ++ [s.acc], acc := [], frames := 0 }

/-- Fault entry, `raise F(info)` (R148): FLT, CAUSE and RV in STATUS, FINFO, and ACC discarded; FRAMES, FB, the contents
of RES and SINK unchanged. `cmd` is the word that faulted. -/
def State.raise (f : FaultCause) (cmd : CmdWord) (s : State) : State :=
  { s with status := enterFault f.code s.status, finfo := cmd, acc := [] }

/-- The first line of every command (R149): in the fault state it has no effect. -/
def whenRunning (s : State) (body : Result) : Result := if s.flt then .next s else body

/-- An illegal word (R144, R147): IllegalCommand, unless the block is in the fault state. -/
def execIllegal (cmd : CmdWord) (s : State) : Result :=
  whenRunning s (.next (s.raise .illegalCommand cmd))

/-- Reset (R33, R160): every piece of state at its reset value; the constant tables and SINK unchanged. What the host has
still to issue is the host's and stays. -/
def State.applyReset (s : State) : State :=
  { State.reset with cfg := s.cfg, sink := s.sink, hostIn := s.hostIn }

/-- The command port (R50, R60): the host's next action, taken from the port. -/
def State.takeAction (s : State) : Option (HostAction × State) :=
  match s.hostIn with
  | [] => none
  | a :: rest => some (a, { s with hostIn := rest })

/-- The host issues `a` next, before what it was to issue. -/
def State.issueNext (a : HostAction) (s : State) : State := { s with hostIn := a :: s.hostIn }

/-- The status port (R29): a read of one register, without side effect. The reserved bits of STATUS read as 0 (R25). -/
def State.readStatus (s : State) : BitVec 8 := s.status &&& 0xF3

/-- A port read of RES: no value while RV is 0 (R24). -/
def State.readRes (s : State) : Option Byte := if s.rv then some s.res else none

/-- Port reads of FRAMES and FINFO (R26, R28). -/
def State.readFrames (s : State) : BitVec 32 := s.frames
def State.readFinfo (s : State) : CmdWord := s.finfo

/-- A port read of ACC_LEN: the number of bytes in ACC (R27). -/
def State.readAccLen (s : State) : Nat := s.acc.length

end Sys2Proof.Machine
end

