-- ==== Sys2Proof/Machine/Bitplane.lean ====
section
/-! DEFINITION. BITX and PMASK, the bit-plane extractor (spec/41_bitplane.md). -/

namespace Sys2Proof.Machine

/-- BITX (R93): `RES <- ((C & M) != 0) ? 1 : 0; STATUS.RV <- 1`. C is taken as already corrected. -/
def execBitx (v m : Byte) (s : State) : Result :=
  whenRunning s (.next (s.writeResult (if bitTest v m then 1 else 0)))

/-- PMASK (R92): `RES <- MASK[J]; STATUS.RV <- 1`, or IllegalOperand when J names no plane. -/
def execPmask (j : BitVec 3) (s : State) : Result :=
  whenRunning s
    (if planeInRange s.cfg j then .next (s.writeResult (planeMask s.cfg j.toNat))
    else .next (s.raise .illegalOperand (encode (.pmask j))))

end Sys2Proof.Machine
end

