-- ==== Sys2Proof/Machine/Gamma.lean ====
section
/-! DEFINITION. GLUT, the gamma look-up (spec/40_gamma_lut.md). -/

namespace Sys2Proof.Machine

/-- GLUT (R80): `RES <- GAMMA(V); STATUS.RV <- 1`. -/
def execGlut (v : Byte) (s : State) : Result :=
  whenRunning s (.next (s.writeResult (correct s.cfg v)))

end Sys2Proof.Machine
end

