-- ==== Sys2Proof/Machine/Packer.lean ====
section
/-! DEFINITION. The packing function and PACK (spec/42_pixel_packer.md). -/

namespace Sys2Proof.Machine

/-- One lane of the packer (R100, R105): the lane's bit where the corrected channel meets the mask, else 0. -/
def lane (c : Config) (m channel bit : Byte) : Byte := if bitTest (correct c channel) m then bit else 0

/-- `pack(m, A, B)` (R100), with the output layout of R101. -/
def packByte (c : Config) (m : Byte) (a b : Pixel) : Byte :=
  lane c m a.r 0x10 ||| lane c m a.g 0x40 ||| lane c m a.b 0x80 |||
    lane c m b.r 0x01 ||| lane c m b.g 0x02 ||| lane c m b.b 0x08

/-- PACK (R102): `RES <- pack(M, A, B); STATUS.RV <- 1`. -/
def execPack (m : Byte) (a b : Pixel) (s : State) : Result :=
  whenRunning s (.next (s.writeResult (packByte s.cfg m a b)))

end Sys2Proof.Machine
end

