-- ==== Sys2Proof/Machine/Sequencer.lean ====
section
/-! DEFINITION. The frame sequencer: FBWR, ENCF, COMMIT and ABORT (spec/43_frame_sequencer.md). -/

namespace Sys2Proof.Machine

/-- The sequencer position inside one ENCF (R31): plane, row-pair, column. -/
structure Position where
  j : Nat
  y : Nat
  x : Nat
  deriving DecidableEq, Repr

/-- The positions of a frame of width `w` in the order of R120: mask, then row, then column, each ascending. -/
def frameOrder (c : Config) (w : Nat) : List Position :=
  (List.range c.bitDepth).flatMap fun j =>
    (List.range c.half).flatMap fun y =>
      (List.range w).map fun x => ⟨j, y, x⟩

/-- The byte of one position (R120): pixel A from the top half, pixel B from HALF rows below, A read first; or the cell
that holds no value. -/
def packAt (c : Config) (fb : Memory) (p : Position) : Except Coord Byte :=
  match fb.read ⟨p.x, p.y⟩ with
  | none => .error ⟨p.x, p.y⟩
  | some a =>
    match fb.read ⟨p.x, p.y + c.half⟩ with
    | none => .error ⟨p.x, p.y + c.half⟩
    | some b => .ok (packByte c (planeMask c p.j) a b)

/-- The bytes of a list of positions, or the first cell met that holds no value. -/
def packAll (c : Config) (fb : Memory) : List Position → Except Coord (List Byte)
  | [] => .ok []
  | p :: rest =>
    match packAt c fb p with
    | .error cell => .error cell
    | .ok byte =>
      match packAll c fb rest with
      | .error cell => .error cell
      | .ok bytes => .ok (byte :: bytes)

/-- `encodeFrame(W)` (R120). -/
def encodeFrame (c : Config) (w : Nat) (fb : Memory) : Except Coord (List Byte) :=
  packAll c fb (frameOrder c w)

/-- FBWR (R115): `FB[X, Y] <- (R, G, B)`, or IllegalOperand when the cell is outside FB. -/
def execFbwr (x : BitVec 16) (y : Byte) (p : Pixel) (s : State) : Result :=
  whenRunning s
    (if coordInRange s.cfg x y then .next (s.writePixel ⟨x.toNat, y.toNat⟩ p)
    else .next (s.raise .illegalOperand (encode (.fbwr x y p))))

/-- ENCF (R116), the checks in the order of R147: the cap, the height, the width, then the pixel reads. -/
def execEncf (h w : BitVec 16) (s : State) : Result :=
  whenRunning s
    (if s.cfg.frameCap ≤ s.frames.toNat then .next s
    else if !heightAccepted s.cfg h then .next (s.raise .frameDimensionError (encode (.encf h w)))
    else if !widthAccepted s.cfg w then .next (s.raise .illegalOperand (encode (.encf h w)))
    else
      match encodeFrame s.cfg w.toNat s.fb with
      | .error cell => .fault (.uninitialisedRead cell.x cell.y)
      | .ok out => .next (s.appendFrame out))

/-- COMMIT (R125): ACC goes to the sink as one artifact, and a new run begins. -/
def execCommit (s : State) : Result := whenRunning s (.next s.deliver)

/-- ABORT (R126): SourceReadError, always. -/
def execAbort (s : State) : Result := whenRunning s (.next (s.raise .sourceReadError (encode .abort)))

end Sys2Proof.Machine
end

