-- ==== Sys2Proof/Machine/Dispatch.lean ====
section
/-! DEFINITION. The dispatch: one arm per command, each one call of its meaning. -/

namespace Sys2Proof.Machine

def exec (i : Instr) (s : State) : Host.Outcome State Fault Refusal :=
  match i with
  | .glut v => Sys2Proof.Machine.execGlut v s
  | .bitx c m => Sys2Proof.Machine.execBitx c m s
  | .pmask j => Sys2Proof.Machine.execPmask j s
  | .pack m a b => Sys2Proof.Machine.execPack m a b s
  | .encf h w => Sys2Proof.Machine.execEncf h w s
  | .commit => Sys2Proof.Machine.execCommit s
  | .abort => Sys2Proof.Machine.execAbort s
  | .fbwr x y p => Sys2Proof.Machine.execFbwr x y p s

end Sys2Proof.Machine
end

