-- ==== Sys2Proof/Machine/Port.lean ====
section
/-! DEFINITION. What the block does with a command word taken from the port (spec/30_encoding.md R60, R72). -/

namespace Sys2Proof.Machine

/-- A command word is decoded, then executed; an illegal one raises IllegalCommand (R71, R144). -/
def execWord (cmd : CmdWord) (s : State) : Host.Outcome State Fault Refusal :=
  match decode cmd with
  | .command i => exec i s
  | .illegal _ => execIllegal cmd s

end Sys2Proof.Machine
end

