-- ==== Sys2Proof/Machine/Step.lean ====
section
/-! DEFINITION. One step: the host's next action is taken from the port and carried out to completion
(spec/20_memory.md R50, spec/30_encoding.md R60). -/

namespace Sys2Proof.Machine

/-- One step. With nothing issued the block is idle and holds its state (R158). -/
def step (s : State) : Host.Outcome State Fault Refusal :=
  match s.takeAction with
  | none => .next s
  | some (.command cmd, t) => execWord cmd t
  | some (.reset, t) => .next t.applyReset

/-- The host issues the command word of these bits next. -/
def State.withFetchWord (s : State) (nbits w : Nat) : State := s.issueNext (.command (tableWord nbits w))

end Sys2Proof.Machine
end

