-- ==== Sys2Proof/Machine/Assembler.lean ====
section
/-! DEFINITION. The assembler of spec/30_encoding.md R74 and R75: the words of a line, and the text of a line. It is the
host's tool; no step of the block reads it. -/

namespace Sys2Proof.Machine

/-- The pixel of three numbers that fit 8 bits. -/
def asmPixel (p : AsmPixel) : Pixel := ⟨BitVec.ofNat 8 p.r, BitVec.ofNat 8 p.g, BitVec.ofNat 8 p.b⟩

/-- `FBWR x, y, p` as a word. -/
def fbwrWord (x y : Nat) (p : AsmPixel) : CmdWord :=
  encode (.fbwr (BitVec.ofNat 16 x) (BitVec.ofNat 8 y) (asmPixel p))

/-- The words of a line the assembler accepts (R74, R75). -/
def asmWords (c : Config) : AsmLine → List CmdWord
  | .glut v => [encode (.glut (BitVec.ofNat 8 v))]
  | .bitx v m => [encode (.bitx (BitVec.ofNat 8 v) (BitVec.ofNat 8 m))]
  | .pmask j => [encode (.pmask (BitVec.ofNat 3 j))]
  | .pack m a b => [encode (.pack (BitVec.ofNat 8 m) (asmPixel a) (asmPixel b))]
  | .fbwr x y p => [fbwrWord x y p]
  | .encf h w => [encode (.encf (BitVec.ofNat 16 h) (BitVec.ofNat 16 w))]
  | .commit => [encode .commit]
  | .abort => [encode .abort]
  | .cmd n => [BitVec.ofNat 64 n]
  | .encframe w => [encode (.encf 32 (BitVec.ofNat 16 w))]
  | .packp j a b => [encode (.pack (BitVec.ofNat 8 (1 <<< (7 - j))) (asmPixel a) (asmPixel b))]
  | .fbfill w p =>
    (List.range c.panelHeight).flatMap fun y => (List.range w).map fun x => fbwrWord x y p
  | .fbcol x top bottom =>
    ((List.range c.half).map fun y => fbwrWord x y top) ++
      (List.range c.half).map fun y => fbwrWord x (y + c.half) bottom

/-- Assemble a line; none where the assembler refuses it. -/
def assemble (c : Config) (line : AsmLine) : Option (List CmdWord) :=
  if line.wellFormed c then some (asmWords c line) else none

/-- The words of a program, or none where a line of it is refused. -/
def assembleAll (c : Config) : List AsmLine → Option (List CmdWord)
  | [] => some []
  | line :: rest =>
    match assemble c line, assembleAll c rest with
    | some ws, some more => some (ws ++ more)
    | _, _ => none

/-- The tokens of a line of text. -/
inductive Token where
  | name (cs : List Char)
  | num (n : Nat)
  | comma
  | lpar
  | rpar
  deriving DecidableEq, Repr

/-- An operand of a line of text: a number or a pixel. -/
inductive Arg where
  | num (n : Nat)
  | pixel (p : AsmPixel)
  deriving DecidableEq, Repr

/-- A line without its comment, which `;` starts. -/
def withoutComment : List Char → List Char
  | [] => []
  | ch :: rest => if ch = ';' then [] else ch :: withoutComment rest

/-- Cut a line at white space, and each comma and parenthesis into a piece of its own; `cur` is the piece being read. -/
def pieces : List Char → List Char → List (List Char)
  | [], cur => if cur.isEmpty then [] else [cur]
  | ch :: rest, cur =>
    let before := if cur.isEmpty then [] else [cur]
    if ch = ' ' ∨ ch = '\t' then before ++ pieces rest []
    else if ch = ',' ∨ ch = '(' ∨ ch = ')' then before ++ [ch] :: pieces rest []
    else pieces rest (cur ++ [ch])

/-- The value of a digit in a base. -/
def digit (base : Nat) (ch : Char) : Option Nat :=
  let n := ch.toNat
  let d := if 48 ≤ n ∧ n ≤ 57 then n - 48
    else if 65 ≤ n ∧ n ≤ 70 then n - 55
    else if 97 ≤ n ∧ n ≤ 102 then n - 87
    else base
  if d < base then some d else none

/-- The number of a list of digits, `acc` read so far. -/
def number (base : Nat) : List Char → Nat → Option Nat
  | [], acc => some acc
  | ch :: rest, acc =>
    match digit base ch with
    | some d => number base rest (acc * base + d)
    | none => none

/-- A piece as a token: decimal or `0x` hexadecimal numbers (R74), punctuation, or a name. -/
def token (piece : List Char) : Option Token :=
  match piece with
  | [','] => some .comma
  | ['('] => some .lpar
  | [')'] => some .rpar
  | '0' :: 'x' :: ch :: rest => (number 16 (ch :: rest) 0).map .num
  | ch :: rest =>
    if (digit 10 ch).isSome then (number 10 (ch :: rest) 0).map .num else some (.name (ch :: rest))
  | [] => none

/-- The tokens of the pieces. -/
def tokens : List (List Char) → Option (List Token)
  | [] => some []
  | p :: rest =>
    match token p, tokens rest with
    | some t, some ts => some (t :: ts)
    | _, _ => none

/-- Operands separated by commas, a pixel as a parenthesised triple (R74). -/
def args : List Token → Option (List Arg)
  | [.num n] => some [.num n]
  | [.lpar, .num r, .comma, .num g, .comma, .num b, .rpar] => some [.pixel ⟨r, g, b⟩]
  | .num n :: .comma :: rest => (args rest).map fun more => .num n :: more
  | .lpar :: .num r :: .comma :: .num g :: .comma :: .num b :: .rpar :: .comma :: rest =>
    (args rest).map fun more => .pixel ⟨r, g, b⟩ :: more
  | _ => none

/-- A mnemonic with its operands as a line (R74, R75). -/
def lineOf (mnemonic : List Char) (operands : List Arg) : Option AsmLine :=
  if mnemonic = "GLUT".toList then
    match operands with | [.num v] => some (.glut v) | _ => none
  else if mnemonic = "BITX".toList then
    match operands with | [.num v, .num m] => some (.bitx v m) | _ => none
  else if mnemonic = "PMASK".toList then
    match operands with | [.num j] => some (.pmask j) | _ => none
  else if mnemonic = "PACK".toList then
    match operands with | [.num m, .pixel a, .pixel b] => some (.pack m a b) | _ => none
  else if mnemonic = "FBWR".toList then
    match operands with | [.num x, .num y, .pixel p] => some (.fbwr x y p) | _ => none
  else if mnemonic = "ENCF".toList then
    match operands with | [.num h, .num w] => some (.encf h w) | _ => none
  else if mnemonic = "COMMIT".toList then
    match operands with | [] => some .commit | _ => none
  else if mnemonic = "ABORT".toList then
    match operands with | [] => some .abort | _ => none
  else if mnemonic = ".cmd".toList then
    match operands with | [.num n] => some (.cmd n) | _ => none
  else if mnemonic = "ENCFRAME".toList then
    match operands with | [.num w] => some (.encframe w) | _ => none
  else if mnemonic = "PACKP".toList then
    match operands with | [.num j, .pixel a, .pixel b] => some (.packp j a b) | _ => none
  else if mnemonic = "FBFILL".toList then
    match operands with | [.num w, .pixel p] => some (.fbfill w p) | _ => none
  else if mnemonic = "FBCOL".toList then
    match operands with | [.num x, .pixel t, .pixel b] => some (.fbcol x t b) | _ => none
  else none

/-- What a line of text is: no command (blank, or a comment alone), a command, or not of the syntax. -/
inductive ParsedLine where
  | blank
  | line (l : AsmLine)
  | notAssembly
  deriving DecidableEq, Repr

/-- Read a line of text (R74). -/
def parseLine (text : List Char) : ParsedLine :=
  match tokens (pieces (withoutComment text) []) with
  | some [] => .blank
  | some [.name mnemonic] =>
    match lineOf mnemonic [] with
    | some l => .line l
    | none => .notAssembly
  | some (.name mnemonic :: t :: ts) =>
    match args (t :: ts) with
    | some operands =>
      match lineOf mnemonic operands with
      | some l => .line l
      | none => .notAssembly
    | none => .notAssembly
  | _ => .notAssembly

end Sys2Proof.Machine
end

