-- ==== Sys2Proof/Safety.lean ====
section
/-! DEFINITION. What counts as a safe run of the block, and the vocabulary of the statements about it: the invariant of
every state a run reaches, the host's duty before an ENCF (spec/43_frame_sequencer.md R130), fault entry as a relation
(spec/60_exceptions.md R148) and runs of commands (R50). -/

namespace Sys2Proof.Machine

/-- The host's duty of R130: every cell (x, y) with x < w and y < PANEL_HEIGHT holds a pixel. -/
def FrameComplete (c : Config) (w : Nat) (fb : Memory) : Prop :=
  ∀ x y : Nat, x < w → y < c.panelHeight → ∃ p, fb.read ⟨x, y⟩ = some p

/-- The step does not stop in the model-only fault of R146. -/
def Safe (s : State) : Prop := ∃ t, step s = .next t

/-- Output bytes have bits 5 and 2 clear (R103). -/
def LayoutBytes (bytes : List Byte) : Prop := ∀ b ∈ bytes, b &&& 0x24 = 0

/-- What every run keeps true of STATUS, FINFO, ACC and FRAMES (R25, R26, R28, R44, R140, R148). -/
structure RegistersOk (s : State) : Prop where
  /-- STATUS[3:2] are 0 (R25). -/
  reserved_zero : statusReserved s.status = 0
  /-- CAUSE is 0 while FLT is 0 (R25). -/
  cause_zero : s.flt = false → s.cause = 0
  /-- While FLT is 1, CAUSE is 2, 3, 4 or 5 (R140). -/
  cause_legal : s.flt = true → 2 ≤ s.cause.toNat ∧ s.cause.toNat ≤ 5
  /-- RES holds no value in the fault state (R148). -/
  rv_clear : s.flt = true → s.rv = false
  /-- FINFO is 0 while FLT is 0 (R28). -/
  finfo_zero : s.flt = false → s.finfo = 0
  /-- The partial buffer is discarded in the fault state (R148). -/
  acc_empty : s.flt = true → s.acc = []
  /-- FRAMES never passes the cap (R26). -/
  frames_le : s.frames.toNat ≤ s.cfg.frameCap
  /-- No frame, no byte (R44). -/
  acc_of_no_frame : s.frames = 0 → s.acc = []

/-- What every run keeps true of the memories (R41, R103, R121). -/
structure MemoriesOk (s : State) : Prop where
  /-- FB is in canonical form. -/
  fb_wf : s.fb.wf
  /-- Every cell of FB lies in FB (R41). -/
  fb_in_range : ∀ e ∈ s.fb, e.1.x < s.cfg.maxWidth ∧ e.1.y < s.cfg.panelHeight
  /-- Bits 5 and 2 of every byte of ACC are 0 (R103). -/
  acc_layout : LayoutBytes s.acc
  /-- ACC holds whole planes of whole columns (R121). -/
  acc_length : s.cfg.bitDepth * s.cfg.half ∣ s.acc.length
  /-- The same of every artifact. -/
  sink_layout : ∀ a ∈ s.sink, LayoutBytes a
  sink_length : ∀ a ∈ s.sink, s.cfg.bitDepth * s.cfg.half ∣ a.length

/-- The invariant of every run. -/
structure Inv (s : State) : Prop where
  registers : RegistersOk s
  memories : MemoriesOk s

/-- CAUSE and FINFO name the violated invariant and the offending input (R28, R142 to R145). -/
def FaultExplained (s : State) : Prop :=
  s.flt = true →
    (s.cause = FaultCause.frameDimensionError.code ∧
      ∃ h w, decode s.finfo = .command (.encf h w) ∧ h.toNat ≠ s.cfg.panelHeight) ∨
    (s.cause = FaultCause.sourceReadError.code ∧ decode s.finfo = .command .abort) ∨
    (s.cause = FaultCause.illegalCommand.code ∧ ∃ why, decode s.finfo = .illegal why) ∨
    (s.cause = FaultCause.illegalOperand.code ∧
      ((∃ j, decode s.finfo = .command (.pmask j) ∧ s.cfg.bitDepth ≤ j.toNat) ∨
       (∃ x y p, decode s.finfo = .command (.fbwr x y p) ∧
          (s.cfg.maxWidth ≤ x.toNat ∨ s.cfg.panelHeight ≤ y.toNat)) ∨
       (∃ h w, decode s.finfo = .command (.encf h w) ∧ h.toNat = s.cfg.panelHeight ∧
          s.cfg.maxWidth < w.toNat)))

/-- `t` is `s` after fault entry with cause `f` on the word `cmd` (R148): the writes, and everything else unchanged. -/
structure FaultEntered (f : FaultCause) (cmd : CmdWord) (s t : State) : Prop where
  flt : t.flt = true
  cause : t.cause = f.code
  rv : t.rv = false
  finfo : t.finfo = cmd
  acc : t.acc = []
  frames : t.frames = s.frames
  fb : ∀ at_, t.fb.read at_ = s.fb.read at_
  res : t.res = s.res
  sink : t.sink = s.sink
  reserved : statusReserved t.status = statusReserved s.status
  cfg : t.cfg = s.cfg
  hostIn : t.hostIn = s.hostIn

/-- The frame of GLUT, BITX, PMASK and PACK: everything but RES and STATUS.RV is unchanged. -/
structure ResultFrame (s t : State) : Prop where
  flt : t.flt = s.flt
  cause : t.cause = s.cause
  reserved : statusReserved t.status = statusReserved s.status
  frames : t.frames = s.frames
  finfo : t.finfo = s.finfo
  acc : t.acc = s.acc
  fb : ∀ at_, t.fb.read at_ = s.fb.read at_
  sink : t.sink = s.sink
  cfg : t.cfg = s.cfg
  hostIn : t.hostIn = s.hostIn

/-- Commands executed one after the other, each to completion (R50), until one stops. -/
def execAll : List Instr → State → Result
  | [], s => .next s
  | i :: rest, s =>
    match exec i s with
    | .next t => execAll rest t
    | .fault f => .fault f
    | .refused r => .refused r

/-- The width an ENCF asks for; none for another command. -/
def encfWidth : Instr → Option Nat
  | .encf _ w => some w.toNat
  | .glut _ => none
  | .bitx _ _ => none
  | .pmask _ => none
  | .pack _ _ _ => none
  | .commit => none
  | .abort => none
  | .fbwr _ _ _ => none

/-- FB after a command that raises no fault: FBWR alone writes it (R41). -/
def fbStep (i : Instr) (fb : Memory) : Memory :=
  match i with
  | .fbwr x y p => fb.write ⟨x.toNat, y.toNat⟩ p
  | .glut _ => fb
  | .bitx _ _ => fb
  | .pmask _ => fb
  | .pack _ _ _ => fb
  | .encf _ _ => fb
  | .commit => fb
  | .abort => fb

/-- FB after a list of commands that raise no fault. -/
def fbAfter (cs : List Instr) (fb : Memory) : Memory := cs.foldl (fun m i => fbStep i m) fb

/-- The frames that a list of commands issues, in issue order: the width each ENCF asks for and FB as it stands at that
ENCF, the FBWRs issued before it written (R53, R128). -/
def issuedFrames : List Instr → Memory → List (Nat × Memory)
  | [], _ => []
  | i :: rest, fb =>
    match encfWidth i with
    | some w => (w, fb) :: issuedFrames rest (fbStep i fb)
    | none => issuedFrames rest (fbStep i fb)

/-- FRAMES after a command that raises no fault, `n` before it (R26, R117, R125). -/
def framesStep (c : Config) (n : Nat) : Instr → Nat
  | .encf _ _ => if n < c.frameCap then n + 1 else n
  | .commit => 0
  | .glut _ => n
  | .bitx _ _ => n
  | .pmask _ => n
  | .pack _ _ _ => n
  | .abort => n
  | .fbwr _ _ _ => n

/-- The host's duty before a command, with `n` frames encoded and FB as it stands: an operand in range (R92, R115), below
the cap a frame of the panel's height that FB holds complete (R118, R119, R130), and no ABORT (R126). -/
def CommandReady (c : Config) (n : Nat) (fb : Memory) : Instr → Prop
  | .pmask j => j.toNat < c.bitDepth
  | .fbwr x y _ => x.toNat < c.maxWidth ∧ y.toNat < c.panelHeight
  | .encf h w => n < c.frameCap → h.toNat = c.panelHeight ∧ w.toNat ≤ c.maxWidth ∧ FrameComplete c w.toNat fb
  | .abort => False
  | .glut _ => True
  | .bitx _ _ => True
  | .pack _ _ _ => True
  | .commit => True

/-- The host's duty over a list of commands, each in the state that the commands before it leave (R162). -/
def CleanRun (c : Config) : List Instr → Nat → Memory → Prop
  | [], _, _ => True
  | i :: rest, n, fb => CommandReady c n fb i ∧ CleanRun c rest (framesStep c n i) (fbStep i fb)

end Sys2Proof.Machine
end

