-- ==== Sys2Proof/Certificates/Slice0/Obligations.lean ====
section
/-! DEFINITION. The statements about the model, each from the rules of spec/ its docstring cites. Every statement is about
every configuration a state can hold (spec/10_state.md R20), not about the block's open one alone, unless it says so. -/

open Sys2Proof Sys2Proof.Machine

/-! ### Encoding -/

/-- Decoding the word of any command gives the command back: no operand bit is dropped (R62 to R70). -/
def Obligations.DecodeEncodeRoundTrip : Prop :=
  ∀ i : Instr, decode (encode i) = .command i

/-- A word that decodes to a command is the command's one word (R62 to R72). -/
def Obligations.EncodeDecodeRoundTrip : Prop :=
  ∀ (w : CmdWord) (i : Instr), decode w = .command i → encode i = w

/-- R72: no two rows match one word; the decoder answers the command of the row that matches, or `Illegal` where none
does. -/
def Obligations.DecodeIsTheUniqueRow : Prop :=
  ∀ w : CmdWord,
    (opcodeMap.filter fun r => r.selectedBy w).length ≤ 1 ∧
    (∀ i, decode w = .command i → i.row.selectedBy w = true) ∧
    ((∃ why, decode w = .illegal why) ↔ ∀ r ∈ opcodeMap, r.selectedBy w = false)

/-- R71 with R144: a word is illegal exactly when OP is 0x0 or 0x9 to 0xF, or a reserved bit of the format of OP is 1 (R62 to
R68); the all-zero word is; executing an illegal word enters the fault state with IllegalCommand, FINFO the word. -/
def Obligations.IllegalWordsRaiseIllegalCommand : Prop :=
  (∀ w : CmdWord, (∃ why, decode w = .illegal why) ↔
    (w.toNat / 2 ^ 60 = 0 ∨ 9 ≤ w.toNat / 2 ^ 60) ∨
    (w.toNat / 2 ^ 60 = 1 ∧ w.extractLsb' 8 52 ≠ 0) ∨
    (w.toNat / 2 ^ 60 = 2 ∧ w.extractLsb' 16 44 ≠ 0) ∨
    (w.toNat / 2 ^ 60 = 3 ∧ w.extractLsb' 3 57 ≠ 0) ∨
    (w.toNat / 2 ^ 60 = 4 ∧ w.extractLsb' 56 4 ≠ 0) ∨
    (w.toNat / 2 ^ 60 = 5 ∧ w.extractLsb' 32 28 ≠ 0) ∨
    (w.toNat / 2 ^ 60 = 6 ∧ w.extractLsb' 0 60 ≠ 0) ∨
    (w.toNat / 2 ^ 60 = 7 ∧ w.extractLsb' 0 60 ≠ 0) ∨
    (w.toNat / 2 ^ 60 = 8 ∧ (w.extractLsb' 56 4 ≠ 0 ∨ w.extractLsb' 24 8 ≠ 0))) ∧
  (∃ why, decode 0 = .illegal why) ∧
  (∀ (s : State) (w : CmdWord) (rest : List HostAction) (why : IllegalReason),
    s.hostIn = .command w :: rest → s.flt = false → decode w = .illegal why →
    ∃ t, step s = .next t ∧ FaultEntered .illegalCommand w { s with hostIn := rest } t)

/-- R69: every operand is the unsigned number of its one contiguous field. -/
def Obligations.OperandsReadFromTheirFields : Prop :=
  ∀ w : CmdWord,
    match decode w with
    | .command (.glut v) => v.toNat = w.toNat % 256
    | .command (.bitx c m) => c.toNat = w.toNat % 256 ∧ m.toNat = w.toNat / 2 ^ 8 % 256
    | .command (.pmask j) => j.toNat = w.toNat % 8
    | .command (.pack m a b) =>
      m.toNat = w.toNat / 2 ^ 48 % 256 ∧
      a.r.toNat = w.toNat / 2 ^ 40 % 256 ∧ a.g.toNat = w.toNat / 2 ^ 32 % 256 ∧ a.b.toNat = w.toNat / 2 ^ 24 % 256 ∧
      b.r.toNat = w.toNat / 2 ^ 16 % 256 ∧ b.g.toNat = w.toNat / 2 ^ 8 % 256 ∧ b.b.toNat = w.toNat % 256
    | .command (.encf h v) => h.toNat = w.toNat / 2 ^ 16 % 65536 ∧ v.toNat = w.toNat % 65536
    | .command .commit => True
    | .command .abort => True
    | .command (.fbwr x y p) =>
      x.toNat = w.toNat / 2 ^ 40 % 65536 ∧ y.toNat = w.toNat / 2 ^ 32 % 256 ∧
      p.r.toNat = w.toNat / 2 ^ 16 % 256 ∧ p.g.toNat = w.toNat / 2 ^ 8 % 256 ∧ p.b.toNat = w.toNat % 256
    | .illegal _ => True

/-- R62 to R68: the word of every command, field by field: OP in bits 63 to 60, each operand in its own bits, every reserved bit
0. -/
def Obligations.CommandEncodings : Prop :=
  (∀ v : Byte, (encode (.glut v)).toNat = 0x1 * 2 ^ 60 + v.toNat) ∧
  (∀ c m : Byte, (encode (.bitx c m)).toNat = 0x2 * 2 ^ 60 + m.toNat * 2 ^ 8 + c.toNat) ∧
  (∀ j : BitVec 3, (encode (.pmask j)).toNat = 0x3 * 2 ^ 60 + j.toNat) ∧
  (∀ (m : Byte) (a b : Pixel), (encode (.pack m a b)).toNat = 0x4 * 2 ^ 60 + m.toNat * 2 ^ 48 +
    a.r.toNat * 2 ^ 40 + a.g.toNat * 2 ^ 32 + a.b.toNat * 2 ^ 24 + b.r.toNat * 2 ^ 16 + b.g.toNat * 2 ^ 8 + b.b.toNat) ∧
  (∀ h w : BitVec 16, (encode (.encf h w)).toNat = 0x5 * 2 ^ 60 + h.toNat * 2 ^ 16 + w.toNat) ∧
  (encode .commit).toNat = 0x6 * 2 ^ 60 ∧ (encode .abort).toNat = 0x7 * 2 ^ 60 ∧
  (∀ (x : BitVec 16) (y : Byte) (p : Pixel), (encode (.fbwr x y p)).toNat = 0x8 * 2 ^ 60 + x.toNat * 2 ^ 40 +
    y.toNat * 2 ^ 32 + p.r.toNat * 2 ^ 16 + p.g.toNat * 2 ^ 8 + p.b.toNat)

/-- R76: the worked encodings, one for every command, and the illegal word. -/
def Obligations.WorkedEncodings : Prop :=
  decode 0x10000000000000FF = .command (.glut 255) ∧
  decode 0x20000000000020A5 = .command (.bitx 0xA5 0x20) ∧
  decode 0x3000000000000005 = .command (.pmask 5) ∧
  decode 0x4080FFFFFFFFFFFF = .command (.pack 0x80 ⟨255, 255, 255⟩ ⟨255, 255, 255⟩) ∧
  decode 0x4004000000FFFFFF = .command (.pack 0x04 ⟨0, 0, 0⟩ ⟨255, 255, 255⟩) ∧
  decode 0x8000011F00FFFFFF = .command (.fbwr 1 31 ⟨255, 255, 255⟩) ∧
  decode 0x5000000000200002 = .command (.encf 32 2) ∧
  decode 0x6000000000000000 = .command .commit ∧
  decode 0x7000000000000000 = .command .abort ∧
  decode 0x1000000000000100 = .illegal .reservedBit

/-- A command word carried as bytes lies with CMD[7:0] first, and is read back whole (R47; the byte order is the spec's own
decision D19). -/
def Obligations.CommandBytesRoundTrip : Prop :=
  ∀ (w : CmdWord) (rest : List Byte),
    takeWord (wordBytes w ++ rest) = some (w, rest) ∧
    ∀ i, i < 8 → ((wordBytes w).getD i 0).toNat = w.toNat / 2 ^ (8 * i) % 256

/-- R75: the expansion of each pseudo-instruction, in the order of the table, and its condition. -/
def Obligations.PseudoInstructionsExpand : Prop :=
  ∀ c : Config,
    (∀ w, assemble c (.encframe w) = assemble c (.encf 32 w)) ∧
    (∀ j a b, j < c.bitDepth →
      assemble c (.packp j a b) = assemble c (.pack (1 <<< (7 - j)) a b) ∧
      assemble c (.packp j a b) = assemble c (.pack (planeMask c j).toNat a b)) ∧
    (∀ j a b, c.bitDepth ≤ j → assemble c (.packp j a b) = none) ∧
    (∀ w p, 1 ≤ w → w ≤ c.maxWidth → p.wellFormed = true →
      ∃ ws, assemble c (.fbfill w p) = some ws ∧ ws.length = 32 * w ∧
        assembleAll c ((List.range (32 * w)).map fun k => .fbwr (k % w) (k / w) p) = some ws) ∧
    (∀ w p, (w = 0 ∨ c.maxWidth < w) → assemble c (.fbfill w p) = none) ∧
    (∀ x top bottom, x < c.maxWidth → top.wellFormed = true → bottom.wellFormed = true →
      ∃ ws, assemble c (.fbcol x top bottom) = some ws ∧ ws.length = 32 ∧
        assembleAll c ((List.range 32).map fun y => .fbwr x y (if y < 16 then top else bottom)) = some ws) ∧
    (∀ x top bottom, c.maxWidth ≤ x → assemble c (.fbcol x top bottom) = none)

/-- The assembler refuses an operand that does not fit its field and accepts one that fits and is out of range for the
command (R74), for every line of R74's table; what it accepts decodes to the operands written. That `.cmd` refuses a number
of more than 64 bits is the model's choice (log entry 14). -/
def Obligations.AssemblerFieldChecks : Prop :=
  ∀ c : Config,
    (∀ v, if v < 256 then ∃ w b, assemble c (.glut v) = some [w] ∧ decode w = .command (.glut b) ∧ b.toNat = v
      else assemble c (.glut v) = none) ∧
    (∀ v m, if v < 256 ∧ m < 256 then
        ∃ w a b, assemble c (.bitx v m) = some [w] ∧ decode w = .command (.bitx a b) ∧ a.toNat = v ∧ b.toNat = m
      else assemble c (.bitx v m) = none) ∧
    (∀ j, if j < 8 then ∃ w b, assemble c (.pmask j) = some [w] ∧ decode w = .command (.pmask b) ∧ b.toNat = j
      else assemble c (.pmask j) = none) ∧
    (∀ h v, if h < 65536 ∧ v < 65536 then
        ∃ w a b, assemble c (.encf h v) = some [w] ∧ decode w = .command (.encf a b) ∧ a.toNat = h ∧ b.toNat = v
      else assemble c (.encf h v) = none) ∧
    (∀ x y p, if x < 65536 ∧ y < 256 ∧ p.wellFormed = true then
        ∃ w a b q, assemble c (.fbwr x y p) = some [w] ∧ decode w = .command (.fbwr a b q) ∧ a.toNat = x ∧ b.toNat = y ∧
          q.r.toNat = p.r ∧ q.g.toNat = p.g ∧ q.b.toNat = p.b
      else assemble c (.fbwr x y p) = none) ∧
    (∀ m a b, if m < 256 ∧ (a.r < 256 ∧ a.g < 256 ∧ a.b < 256) ∧ b.r < 256 ∧ b.g < 256 ∧ b.b < 256 then
        ∃ w n p q, assemble c (.pack m a b) = some [w] ∧ decode w = .command (.pack n p q) ∧ n.toNat = m ∧
          p.r.toNat = a.r ∧ p.g.toNat = a.g ∧ p.b.toNat = a.b ∧ q.r.toNat = b.r ∧ q.g.toNat = b.g ∧ q.b.toNat = b.b
      else assemble c (.pack m a b) = none) ∧
    (∃ w, assemble c .commit = some [w] ∧ decode w = .command .commit) ∧
    (∃ w, assemble c .abort = some [w] ∧ decode w = .command .abort) ∧
    (∀ n, if n < 2 ^ 64 then ∃ w : CmdWord, assemble c (.cmd n) = some [w] ∧ w.toNat = n
      else assemble c (.cmd n) = none)

/-! ### Configuration and constant tables -/

/-- R141: a configuration is refused when one of the conditions fails, and elaborated with the values given when all hold. -/
def Obligations.IllFormedConfigurationRefused : Prop :=
  ∀ raw : RawConfig,
    if 1 ≤ raw.bitDepth ∧ raw.bitDepth ≤ 7 ∧ raw.panelHeight = 32 ∧ 1 ≤ raw.maxWidth ∧ raw.maxWidth ≤ 65535 ∧
        raw.frameCap ≤ 2 ^ 32 - 1 ∧ raw.gamma.length = 256 ∧
        (∀ v w : Byte, v ≤ w → raw.gamma.getD v.toNat 0 ≤ raw.gamma.getD w.toNat 0) ∧
        raw.gamma.getD 0 0 = 0 ∧ raw.gamma.getD 255 0 = 255 then
      ∃ c, elaborate raw = .ok c ∧ c.bitDepth = raw.bitDepth ∧ c.panelHeight = raw.panelHeight ∧
        c.maxWidth = raw.maxWidth ∧ c.frameCap = raw.frameCap ∧ c.gamma.entries = raw.gamma
    else ∃ why, elaborate raw = .error why

/-- R83 (a) and (b), from P1 to P3 of R7: of any admissible GAMMA. -/
def Obligations.GammaLaws : Prop :=
  ∀ c : Config, correct c 0 = 0 ∧ correct c 255 = 255 ∧ ∀ v w : Byte, v ≤ w → correct c v ≤ correct c w

/-- R90 and R91: the plane masks of every legal depth, position `j` holding `1 << (i + (7 - D))` for `i = D - j`, which is
`1 << (7 - j)`; exactly [128, 64, 32, 16, 8, 4] for depth 6; never the mask 0x01; the error for D = 0 and D > 7. -/
def Obligations.PlaneMaskSet : Prop :=
  (∀ d, 1 ≤ d → d ≤ 7 → ∃ l, masks d = .ok l ∧ l.length = d ∧ 0x01 ∉ l ∧
    ∀ j, j < d → l[j]? = some (BitVec.ofNat 8 (1 <<< ((d - j) + (7 - d)))) ∧ l[j]? = some (BitVec.ofNat 8 (1 <<< (7 - j)))) ∧
  (∀ d, d = 0 ∨ 7 < d → masks d = .error .bitDepth) ∧
  masks 6 = .ok [128, 64, 32, 16, 8, 4] ∧
  (∀ c : Config, masks c.bitDepth = .ok (maskTable c))

/-- R94: plane `j` of a channel is bit 7 - j of its corrected value. -/
def Obligations.PlaneTestIsOneBit : Prop :=
  ∀ (c : Config) (j : Nat) (v : Byte), j < c.bitDepth →
    (v &&& planeMask c j ≠ 0 ↔ v.getLsbD (7 - j) = true)

/-- No command and no reset changes the configuration: the tables GAMMA and MASK and the other parameters (R21, R22, R161). -/
def Obligations.ConfigurationNeverChanges : Prop :=
  ∀ s t : State, step s = .next t → t.cfg = s.cfg

/-! ### Reset and the step -/

/-- What reset leaves, applied to any state by the host and in the state before the first command; the block's masks are
those of depth 6 (R33). That the actions the host has still to issue stay (`t.hostIn = rest`) is the model's choice (log entry
7), and so is that the parameters of the first state are the constants of `Config.block` (log entry 1). -/
def Obligations.ResetValues : Prop :=
  (∀ (s : State) (rest : List HostAction), s.hostIn = .reset :: rest →
    ∃ t, step s = .next t ∧ (∀ at_, t.fb.read at_ = none) ∧ t.acc = [] ∧ t.frames = 0 ∧ t.readStatus = 0 ∧ t.status = 0 ∧
      t.readRes = none ∧ t.finfo = 0 ∧ t.cfg = s.cfg ∧ t.sink = s.sink ∧ t.hostIn = rest) ∧
  (∀ at_, State.reset.fb.read at_ = none) ∧ State.reset.acc = [] ∧ State.reset.frames = 0 ∧ State.reset.status = 0 ∧
  State.reset.readRes = none ∧ State.reset.finfo = 0 ∧ State.reset.cfg = Config.block ∧
  maskTable State.reset.cfg = [0x80, 0x40, 0x20, 0x10, 0x08, 0x04] ∧ State.reset.cfg.panelHeight = 32

/-- The state after reset meets the invariants that every step keeps. That SINK and the host's actions are empty there, and
RES 0, is the model's choice (log entries 2 and 3). -/
def Obligations.ResetMeetsInvariants : Prop :=
  Inv State.reset ∧ FaultExplained State.reset

/-- The registers and memories keep the form the rules give them, from every state that has it (R25, R26, R28, R41, R44, R103,
R121, R140, R148). -/
def Obligations.StepKeepsInv : Prop :=
  ∀ s t : State, Inv s → step s = .next t → Inv t

/-- In the fault state CAUSE and FINFO name the violated invariant and the offending input, and every step keeps it so (R28,
R142 to R145). -/
def Obligations.StepKeepsFaultExplained : Prop :=
  ∀ s t : State, FaultExplained s → step s = .next t → FaultExplained t

/-- A step runs the command that the issued word decodes to, on the state with the word taken from the port (R60); the host
places a word with `withFetchWord`. -/
def Obligations.StepRunsDecodedCommand : Prop :=
  (∀ (s : State) (w : CmdWord) (rest : List HostAction) (i : Instr),
    s.hostIn = .command w :: rest → decode w = .command i → step s = exec i { s with hostIn := rest }) ∧
  (∀ (s : State) (w : Nat) (i : Instr), decodeTableWord 64 w = some i → step (s.withFetchWord 64 w) = exec i s)

/-- R158: between commands the block holds its state. -/
def Obligations.IdleBlockHoldsItsState : Prop :=
  ∀ s : State, s.hostIn = [] → step s = .next s

/-- R149 and R150: in the fault state every word, legal or illegal, is taken and changes nothing, so no second fault is
raised; the step that leaves the fault state is a reset. -/
def Obligations.FaultStateIgnoresCommands : Prop :=
  (∀ (s : State) (w : CmdWord) (rest : List HostAction), s.hostIn = .command w :: rest → s.flt = true →
    step s = .next { s with hostIn := rest }) ∧
  (∀ (i : Instr) (s : State), s.flt = true → exec i s = .next s) ∧
  (∀ s t : State, s.flt = true → step s = .next t → t.flt = false → ∃ rest, s.hostIn = .reset :: rest) ∧
  (∀ (s : State) (rest : List HostAction), s.hostIn = .reset :: rest → ∃ t, step s = .next t ∧ t.flt = false)

/-- R148: fault entry writes FLT, CAUSE, RV, FINFO and ACC, and nothing else; and whenever a step enters the fault state, that
is all the faulting word does, with the word in FINFO. -/
def Obligations.FaultEntryWrites : Prop :=
  (∀ (f : FaultCause) (cmd : CmdWord) (s : State), FaultEntered f cmd s (s.raise f cmd)) ∧
  (∀ s t : State, step s = .next t → s.flt = false → t.flt = true →
    ∃ f w rest, s.hostIn = .command w :: rest ∧ FaultEntered f w { s with hostIn := rest } t)

/-- The block stops in one way only: an ENCF below the cap, of height 32 and a width FB holds, whose frame has a cell no FBWR
has written (R146). No command is refused. -/
def Obligations.OnlyAnIncompleteFrameStops : Prop :=
  (∀ (i : Instr) (s : State) (r : Fault), exec i s = .fault r →
    ∃ h w x y, i = .encf h w ∧ r = .uninitialisedRead x y ∧ s.fb.read ⟨x, y⟩ = none ∧ x < w.toNat ∧ y < 32 ∧
      s.flt = false ∧ s.frames.toNat < s.cfg.frameCap ∧ h = 32 ∧ w.toNat ≤ s.cfg.maxWidth) ∧
  (∀ (i : Instr) (s : State) (r : Refusal), exec i s ≠ .refused r) ∧
  (∀ (s : State) (r : Refusal), step s ≠ .refused r) ∧
  (∀ (s : State) (r : Fault), step s = .fault r →
    ∃ w rest h v, s.hostIn = .command w :: rest ∧ decode w = .command (.encf h v) ∧ ¬ FrameComplete s.cfg v.toNat s.fb)

/-! ### GLUT, BITX, PMASK, PACK -/

/-- R80 and R81: GLUT sets RES to GAMMA(V) and RV to 1, and nothing else; GLUT 0 gives 0 and GLUT 255 gives 255. -/
def Obligations.GlutResult : Prop :=
  ∀ (v : Byte) (s : State),
    (s.flt = true → exec (.glut v) s = .next s) ∧
    (s.flt = false → ∃ t, exec (.glut v) s = .next t ∧ t.readRes = some (s.cfg.gamma.entries.getD v.toNat 0) ∧ t.rv = true ∧
      t.readStatus = s.readStatus ||| 0x02 ∧ ResultFrame s t ∧ (v = 0 → t.readRes = some 0) ∧ (v = 255 → t.readRes = some 255))

/-- R82: two lookups of one value, in any two states of one block, give the same value. -/
def Obligations.GlutIsRepeatable : Prop :=
  ∀ (v : Byte) (s s' : State), s.cfg = s'.cfg → s.flt = false → s'.flt = false →
    ∃ t t', exec (.glut v) s = .next t ∧ exec (.glut v) s' = .next t' ∧ t.readRes = t'.readRes

/-- R93: BITX gives 1 where C and M share a set bit and 0 where they share none. -/
def Obligations.BitxResult : Prop :=
  ∀ (v m : Byte) (s : State),
    (s.flt = true → exec (.bitx v m) s = .next s) ∧
    (s.flt = false → ∃ t, exec (.bitx v m) s = .next t ∧ t.rv = true ∧
      t.readStatus = s.readStatus ||| 0x02 ∧ ResultFrame s t ∧
      ((∃ k, k < 8 ∧ v.getLsbD k = true ∧ m.getLsbD k = true) → t.readRes = some 1) ∧
      ((∀ k, k < 8 → v.getLsbD k = true → m.getLsbD k = false) → t.readRes = some 0))

/-- R92: PMASK gives `1 << (7 - J)` for a plane of the block and raises IllegalOperand past the last one. -/
def Obligations.PmaskResult : Prop :=
  ∀ (j : BitVec 3) (s : State),
    (s.flt = true → exec (.pmask j) s = .next s) ∧
    (s.flt = false → j.toNat < s.cfg.bitDepth → ∃ t, exec (.pmask j) s = .next t ∧
      t.readRes = some (BitVec.ofNat 8 (2 ^ (7 - j.toNat))) ∧ (maskTable s.cfg)[j.toNat]? = t.readRes ∧ t.rv = true ∧
      t.readStatus = s.readStatus ||| 0x02 ∧ ResultFrame s t) ∧
    (s.flt = false → s.cfg.bitDepth ≤ j.toNat →
      ∃ t, exec (.pmask j) s = .next t ∧ FaultEntered .illegalOperand (encode (.pmask j)) s t)

/-- R100, R101 and R102: each of the six lanes sets its own bit of RES where its corrected channel meets the mask; bits 5 and 2
are 0. -/
def Obligations.PackResult : Prop :=
  ∀ (m : Byte) (a b : Pixel) (s : State),
    (s.flt = true → exec (.pack m a b) s = .next s) ∧
    (s.flt = false → ∃ t r, exec (.pack m a b) s = .next t ∧ t.readRes = some r ∧ t.rv = true ∧
      t.readStatus = s.readStatus ||| 0x02 ∧ ResultFrame s t ∧
      (r.getLsbD 4 = true ↔ correct s.cfg a.r &&& m ≠ 0) ∧
      (r.getLsbD 6 = true ↔ correct s.cfg a.g &&& m ≠ 0) ∧
      (r.getLsbD 7 = true ↔ correct s.cfg a.b &&& m ≠ 0) ∧
      (r.getLsbD 0 = true ↔ correct s.cfg b.r &&& m ≠ 0) ∧
      (r.getLsbD 1 = true ↔ correct s.cfg b.g &&& m ≠ 0) ∧
      (r.getLsbD 3 = true ↔ correct s.cfg b.b &&& m ≠ 0) ∧
      r.getLsbD 5 = false ∧ r.getLsbD 2 = false)

/-- R103: bits 5 and 2 of every PACK result and of every byte of an encoded frame are 0; the largest result is 0xDB. -/
def Obligations.OutputBits5And2AreZero : Prop :=
  (∀ (c : Config) (m : Byte) (a b : Pixel), packByte c m a b &&& 0x24 = 0 ∧ packByte c m a b ≤ 0xDB) ∧
  (∀ (c : Config) (w : Nat) (fb : Memory) (out : List Byte), encodeFrame c w fb = .ok out →
    ∀ b ∈ out, b &&& 0x24 = 0 ∧ b ≤ 0xDB)

/-- The two pixels drive disjoint halves of the byte, A bits 7, 6 and 4 and B bits 3, 1 and 0 alone, so the byte is the OR of the
two halves packed alone (R105; P2 of R7). -/
def Obligations.PackHalvesAreIndependent : Prop :=
  ∀ (c : Config) (m : Byte) (a b : Pixel),
    packByte c m a b = packByte c m a ⟨0, 0, 0⟩ ||| packByte c m ⟨0, 0, 0⟩ b ∧
    packByte c m a ⟨0, 0, 0⟩ &&& 0x2F = 0 ∧ packByte c m ⟨0, 0, 0⟩ b &&& 0xF4 = 0

/-- R107: the corner bytes for every plane mask, and the contribution of the raw values 0 and 255 in any lane for any mask that
is not 0; the corner cases of R102 for any mask. -/
def Obligations.PackCornerBytes : Prop :=
  ∀ c : Config,
    (∀ m ∈ maskTable c, packByte c m ⟨0, 0, 0⟩ ⟨0, 0, 0⟩ = 0x00 ∧
      packByte c m ⟨255, 255, 255⟩ ⟨255, 255, 255⟩ = 0xDB ∧ packByte c m ⟨0, 0, 0⟩ ⟨255, 255, 255⟩ = 0x0B) ∧
    (∀ m bit : Byte, lane c m 0 bit = 0 ∧ (m ≠ 0 → lane c m 255 bit = bit)) ∧
    (∀ m : Byte, packByte c m ⟨0, 0, 0⟩ ⟨0, 0, 0⟩ = 0x00 ∧
      (m ≠ 0 → packByte c m ⟨255, 255, 255⟩ ⟨255, 255, 255⟩ = 0xDB)) ∧
    (∀ a b : Pixel, packByte c 0 a b = 0x00)

/-! ### FBWR -/

/-- R115: FBWR writes its cell and no other cell, and nothing else; outside FB it raises IllegalOperand. -/
def Obligations.FbwrResult : Prop :=
  ∀ (x : BitVec 16) (y : Byte) (p : Pixel) (s : State),
    (s.flt = true → exec (.fbwr x y p) s = .next s) ∧
    (s.flt = false → x.toNat < s.cfg.maxWidth → y.toNat < 32 →
      ∃ t, exec (.fbwr x y p) s = .next t ∧ t = { s with fb := t.fb } ∧ t.fb.read ⟨x.toNat, y.toNat⟩ = some p ∧
        ∀ at_, at_ ≠ ⟨x.toNat, y.toNat⟩ → t.fb.read at_ = s.fb.read at_) ∧
    (s.flt = false → (s.cfg.maxWidth ≤ x.toNat ∨ 32 ≤ y.toNat) →
      ∃ t, exec (.fbwr x y p) s = .next t ∧ FaultEntered .illegalOperand (encode (.fbwr x y p)) s t)

/-- A cell changes only by an FBWR to its coordinates, which leaves that FBWR's pixel in it, or by reset, which leaves no value
(R42). -/
def Obligations.CellHoldsItsLastPixel : Prop :=
  ∀ (s t : State) (at_ : Coord), step s = .next t → t.fb.read at_ ≠ s.fb.read at_ →
    (∃ rest, s.hostIn = .reset :: rest ∧ t.fb.read at_ = none) ∨
    (∃ w rest x y p, s.hostIn = .command w :: rest ∧ decode w = .command (.fbwr x y p) ∧
      at_ = ⟨x.toNat, y.toNat⟩ ∧ t.fb.read at_ = some p)

/-! ### ENCF -/

/-- ENCF below the cap, of height 32 and a width FB holds, with every cell of the frame written, completes: it appends the
frame's bytes, counts one frame and changes nothing else (R116), whatever the widths of earlier frames (R123). -/
def Obligations.EncfEncodesACompleteFrame : Prop :=
  ∀ (w : BitVec 16) (s : State), s.flt = false → s.frames.toNat < s.cfg.frameCap → w.toNat ≤ s.cfg.maxWidth →
    FrameComplete s.cfg w.toNat s.fb →
    ∃ out t, exec (.encf 32 w) s = .next t ∧ encodeFrame s.cfg w.toNat s.fb = .ok out ∧
      t = { s with acc := s.acc ++ out, frames := t.frames } ∧ t.frames.toNat = s.frames.toNat + 1

/-- The bytes of a frame (R120, R122): the byte of plane j, row-pair y and column x stands at offset (j · 16 + y) · W + x, and
is `pack(MASK[j], FB[x, y], FB[x, y + 16])`. -/
def Obligations.FrameBytesInHardwareOrder : Prop :=
  ∀ (c : Config) (w : Nat) (fb : Memory) (out : List Byte), encodeFrame c w fb = .ok out →
    (∀ j y x, j < c.bitDepth → y < 16 → x < w →
      ∃ a b, fb.read ⟨x, y⟩ = some a ∧ fb.read ⟨x, y + 16⟩ = some b ∧
        out[(j * 16 + y) * w + x]? = some (packByte c (BitVec.ofNat 8 (1 <<< (7 - j))) a b)) ∧
    (∀ k, k < out.length →
      ∃ a b, fb.read ⟨k % w, k / w % 16⟩ = some a ∧ fb.read ⟨k % w, k / w % 16 + 16⟩ = some b ∧
        out[k]? = some (packByte c (BitVec.ofNat 8 (1 <<< (7 - k / (16 * w)))) a b))

/-- R121: a frame of width W has BIT_DEPTH · 16 · W bytes, 96 · W in this hardware; an artifact of N frames of width W has N
times as many, whatever commands but COMMIT stand between its ENCFs. -/
def Obligations.FrameLengthLaw : Prop :=
  (∀ (c : Config) (w : Nat) (fb : Memory) (out : List Byte), encodeFrame c w fb = .ok out →
    out.length = c.bitDepth * 16 * w ∧ (c.bitDepth = 6 → out.length = 96 * w)) ∧
  (∀ (cs : List Instr) (w : Nat) (s : State) (ws : List Nat), s.flt = false → s.acc = [] → .commit ∉ cs →
    CleanRun s.cfg cs s.frames.toNat s.fb →
    ws = (cs.filterMap encfWidth).take (s.cfg.frameCap - s.frames.toNat) → (∀ v ∈ ws, v = w) →
    ∃ t a, execAll (cs ++ [.commit]) s = .next t ∧ t.sink = s.sink ++ [a] ∧
      a.length = ws.length * s.cfg.bitDepth * 16 * w ∧ (s.cfg.bitDepth = 6 → a.length = ws.length * 6 * 16 * w))

/-- R117: at the cap ENCF has no effect, whatever its height and width and whatever FB holds. -/
def Obligations.EncfPastTheCapHasNoEffect : Prop :=
  ∀ (h w : BitVec 16) (s : State), s.cfg.frameCap ≤ s.frames.toNat → exec (.encf h w) s = .next s

/-- R118 and R142: below the cap a height other than 32 raises FrameDimensionError, before any pixel is read and whatever the
width; FINFO is the word, FRAMES the index of the frame. -/
def Obligations.EncfHeightCheck : Prop :=
  ∀ (h w : BitVec 16) (s : State), s.flt = false → s.frames.toNat < s.cfg.frameCap → h ≠ 32 →
    ∃ t, exec (.encf h w) s = .next t ∧ FaultEntered .frameDimensionError (encode (.encf h w)) s t

/-- R119: below the cap, at height 32, a width above MAX_WIDTH raises IllegalOperand. -/
def Obligations.EncfWidthCheck : Prop :=
  ∀ (w : BitVec 16) (s : State), s.flt = false → s.frames.toNat < s.cfg.frameCap → s.cfg.maxWidth < w.toNat →
    ∃ t, exec (.encf 32 w) s = .next t ∧ FaultEntered .illegalOperand (encode (.encf 32 w)) s t

/-- An ENCF that passes its checks and whose frame is not complete stops with UninitialisedRead at the first cell without a
value in the order of the loops, row-pair by row-pair and column by column, pixel A before pixel B (R146, R147). -/
def Obligations.EncfStopsAtFirstUnwrittenCell : Prop :=
  ∀ (w : BitVec 16) (s : State), s.flt = false → s.frames.toNat < s.cfg.frameCap → w.toNat ≤ s.cfg.maxWidth →
    ¬ FrameComplete s.cfg w.toNat s.fb →
    ∃ x y, x < w.toNat ∧ y < 16 ∧
      (∀ x' y', x' < w.toNat → y' < 16 → (y' < y ∨ (y' = y ∧ x' < x)) →
        s.fb.read ⟨x', y'⟩ ≠ none ∧ s.fb.read ⟨x', y' + 16⟩ ≠ none) ∧
      ((s.fb.read ⟨x, y⟩ = none ∧ exec (.encf 32 w) s = .fault (.uninitialisedRead x y)) ∨
       (s.fb.read ⟨x, y⟩ ≠ none ∧ s.fb.read ⟨x, y + 16⟩ = none ∧
        exec (.encf 32 w) s = .fault (.uninitialisedRead x (y + 16))))

/-- R124: a frame of width 0 reads no pixel, appends no byte and counts. -/
def Obligations.EncfOfWidthZero : Prop :=
  ∀ s : State, s.flt = false → s.frames.toNat < s.cfg.frameCap →
    ∃ t, exec (.encf 32 0) s = .next t ∧ t = { s with frames := t.frames } ∧ t.frames.toNat = s.frames.toNat + 1

/-- In a block of depth 6, bits 1 and 0 of the corrected channels never reach an encoded frame: two frame buffers that hold
pixels in the same cells of the frame, alike in bits 7 to 2 of every corrected channel, encode alike (R95). -/
def Obligations.LowBitsNeverReachTheFrame : Prop :=
  ∀ (c : Config) (w : Nat) (fb fb' : Memory), c.bitDepth = 6 →
    (∀ x y, x < w → y < 32 →
      (fb.read ⟨x, y⟩ = none ∧ fb'.read ⟨x, y⟩ = none) ∨
      ∃ p q, fb.read ⟨x, y⟩ = some p ∧ fb'.read ⟨x, y⟩ = some q ∧
        (correct c p.r).extractLsb' 2 6 = (correct c q.r).extractLsb' 2 6 ∧
        (correct c p.g).extractLsb' 2 6 = (correct c q.g).extractLsb' 2 6 ∧
        (correct c p.b).extractLsb' 2 6 = (correct c q.b).extractLsb' 2 6) →
    encodeFrame c w fb = encodeFrame c w fb'

/-! ### COMMIT, ABORT and the run -/

/-- R125 and R45: COMMIT delivers ACC as one artifact, empties ACC, sets FRAMES to 0 and changes nothing else. -/
def Obligations.CommitDelivers : Prop :=
  ∀ s : State,
    (s.flt = true → exec .commit s = .next s) ∧
    (s.flt = false → exec .commit s = .next { s with sink := s.sink ++ [s.acc], acc := [], frames := 0 })

/-- R126 and R143: ABORT raises SourceReadError always, FINFO the ABORT word and FRAMES kept. -/
def Obligations.AbortRaisesSourceReadError : Prop :=
  ∀ s : State,
    (s.flt = true → exec .abort s = .next s) ∧
    (s.flt = false → ∃ t, exec .abort s = .next t ∧ FaultEntered .sourceReadError 0x7000000000000000 s t)

/-- SINK changes only by a COMMIT outside the fault state, which appends one artifact, the value of ACC (R45, R46). -/
def Obligations.SinkGrowsOnlyByCommit : Prop :=
  ∀ s t : State, step s = .next t → t.sink ≠ s.sink →
    s.flt = false ∧ (∃ w rest, s.hostIn = .command w :: rest ∧ decode w = .command .commit) ∧ t.sink = s.sink ++ [s.acc]

/-- ACC is only appended to, by an ENCF that encodes a frame, or emptied, by COMMIT, by fault entry or by reset (R44). -/
def Obligations.AccIsAppendOnly : Prop :=
  ∀ s t : State, step s = .next t → t.acc ≠ s.acc →
    (∃ w rest h v out, s.hostIn = .command w :: rest ∧ decode w = .command (.encf h v) ∧
      encodeFrame s.cfg v.toNat s.fb = .ok out ∧ t.acc = s.acc ++ out) ∨
    (t.acc = [] ∧
      ((∃ rest, s.hostIn = .reset :: rest) ∨ (s.flt = false ∧ t.flt = true) ∨
       (∃ w rest, s.hostIn = .command w :: rest ∧ decode w = .command .commit)))

/-- FRAMES is unchanged, or one more by an ENCF below the cap (so it cannot wrap), or 0 by COMMIT or reset (R26). -/
def Obligations.FramesCountsEncodedFrames : Prop :=
  ∀ s t : State, step s = .next t → t.frames ≠ s.frames →
    (t.frames.toNat = s.frames.toNat + 1 ∧ s.frames.toNat < s.cfg.frameCap ∧
      ∃ w rest h v, s.hostIn = .command w :: rest ∧ decode w = .command (.encf h v)) ∨
    (t.frames = 0 ∧
      ((∃ rest, s.hostIn = .reset :: rest) ∨
       (∃ w rest, s.hostIn = .command w :: rest ∧ decode w = .command .commit)))

/-- STATUS is written as R25 says: FLT set by fault entry, which sets CAUSE to a code of R140 and clears RV, and cleared only by
reset; RV set by GLUT, BITX, PMASK and PACK only; CAUSE written at fault entry and cleared by reset only; the reserved bits
written by reset only, and read as 0. -/
def Obligations.StatusFieldsWrittenAsStated : Prop :=
  (∀ s t : State, step s = .next t →
    (∃ rest, s.hostIn = .reset :: rest ∧ t.status = 0) ∨
    (s.flt = false ∧ t.flt = true ∧ t.rv = false ∧ statusReserved t.status = statusReserved s.status ∧
      (t.cause = 2 ∨ t.cause = 3 ∨ t.cause = 4 ∨ t.cause = 5)) ∨
    (s.flt = false ∧ t.flt = false ∧ t.rv = true ∧ t.cause = s.cause ∧
      statusReserved t.status = statusReserved s.status ∧
      ∃ w rest i, s.hostIn = .command w :: rest ∧ decode w = .command i ∧
        ((∃ v, i = .glut v) ∨ (∃ c m, i = .bitx c m) ∨ (∃ j, i = .pmask j) ∨ ∃ m a b, i = .pack m a b)) ∨
    t.status = s.status) ∧
  (∀ s : State, s.readStatus.extractLsb' 2 2 = 0 ∧ s.readStatus.getLsbD 0 = s.flt ∧ s.readStatus.getLsbD 1 = s.rv ∧
    s.readStatus.extractLsb' 4 4 = s.cause)

/-- RES is written by GLUT, BITX, PMASK and PACK only, which set RV with it (and put at its reset value by reset, log entry 2);
a port read returns a value exactly while RV is 1 (R24). -/
def Obligations.ResWrittenOnlyByResults : Prop :=
  (∀ s t : State, step s = .next t → t.res ≠ s.res →
    (∃ rest, s.hostIn = .reset :: rest) ∨
    (t.rv = true ∧ ∃ w rest i, s.hostIn = .command w :: rest ∧ decode w = .command i ∧
      ((∃ v, i = .glut v) ∨ (∃ c m, i = .bitx c m) ∨ (∃ j, i = .pmask j) ∨ ∃ m a b, i = .pack m a b))) ∧
  (∀ s : State, (s.rv = true → s.readRes = some s.res) ∧ (s.rv = false → s.readRes = none))

/-- FINFO is written only at fault entry, with the issued word that faulted, and set to 0 by reset (R28, R148). -/
def Obligations.FinfoHoldsTheFaultingWord : Prop :=
  ∀ s t : State, step s = .next t →
    (t.finfo ≠ s.finfo →
      (t.finfo = 0 ∧ ∃ rest, s.hostIn = .reset :: rest) ∨
      (s.flt = false ∧ t.flt = true ∧ ∃ rest, s.hostIn = .command t.finfo :: rest)) ∧
    (s.flt = false → t.flt = true → ∃ rest, s.hostIn = .command t.finfo :: rest)

/-- The host's duties are exact: from outside the fault state a list of commands runs to a state outside the fault state if
and only if every command of it is ready where it stands (R130, R162; the faults of R142 to R146). -/
def Obligations.CleanRunIffNoFault : Prop :=
  ∀ (cs : List Instr) (s : State), s.flt = false →
    (CleanRun s.cfg cs s.frames.toNat s.fb ↔ ∃ t, execAll cs s = .next t ∧ t.flt = false)

/-- R128: of the frames issued by ENCF among any commands of one run that raise no fault, exactly the first min(M, FRAME_CAP) are
encoded, in issue order, each from FB as it stands at its ENCF; the later ENCFs change nothing, so they can as well be left out.
The widths may differ (R123). A run whose commands are ready, each where it stands, completes; ENCFs alone change nothing but
ACC and FRAMES. -/
def Obligations.FrameCapLaw : Prop :=
  ∀ (cs : List Instr) (s : State), s.flt = false → s.frames = 0 → .commit ∉ cs →
    (CleanRun s.cfg cs 0 s.fb → ∃ t, execAll cs s = .next t ∧ t.flt = false) ∧
    (∀ t, execAll cs s = .next t → t.flt = false →
      (∃ outs : List (List Byte),
        ((issuedFrames cs s.fb).take s.cfg.frameCap).map (fun f => encodeFrame s.cfg f.1 f.2) = outs.map .ok ∧
        t.acc = s.acc ++ outs.flatten) ∧
      t.frames.toNat = min (issuedFrames cs s.fb).length s.cfg.frameCap ∧
      t.fb = fbAfter cs s.fb ∧ t.sink = s.sink ∧ t.finfo = s.finfo ∧ t.cfg = s.cfg ∧ t.hostIn = s.hostIn ∧
      ((∀ i ∈ cs, encfWidth i ≠ none) → t = { s with acc := t.acc, frames := t.frames })) ∧
    (∀ u h w after, execAll cs s = .next u → s.cfg.frameCap ≤ (issuedFrames cs s.fb).length →
      execAll (cs ++ .encf h w :: after) s = execAll (cs ++ after) s)

/-- The artifact of a run that begins in an empty ACC and whose commands are ready: COMMIT delivers the bytes of the frames
encoded, one frame after the other in issue order, each whole and from FB as it stands at its ENCF (R45, R51, R125, R128); with
one width W the byte at offset k of frame f is at offset f · 96 · W + k of the artifact (R122). -/
def Obligations.ArtifactHoldsTheFramesInOrder : Prop :=
  ∀ (cs : List Instr) (s : State), s.flt = false → s.frames = 0 → s.acc = [] → .commit ∉ cs → CleanRun s.cfg cs 0 s.fb →
    ∃ (outs : List (List Byte)) (t : State), execAll (cs ++ [.commit]) s = .next t ∧
      ((issuedFrames cs s.fb).take s.cfg.frameCap).map (fun f => encodeFrame s.cfg f.1 f.2) = outs.map .ok ∧
      t.sink = s.sink ++ [outs.flatten] ∧ t.acc = [] ∧ t.frames = 0 ∧ t.flt = false ∧ t.fb = fbAfter cs s.fb ∧
      ∀ w, (∀ f ∈ (issuedFrames cs s.fb).take s.cfg.frameCap, f.1 = w) →
        ∀ f k out, outs[f]? = some out → k < s.cfg.bitDepth * 16 * w →
          outs.flatten[f * (s.cfg.bitDepth * 16 * w) + k]? = out[k]? ∧
          (s.cfg.bitDepth = 6 → outs.flatten[f * 96 * w + k]? = out[k]?)

/-- R129: once an ENCF below the cap has a height other than 32, nothing of the run reaches SINK, however many frames came
before it and whatever commands come after it. -/
def Obligations.DimensionViolationLaw : Prop :=
  ∀ (before after : List Instr) (h w : BitVec 16) (s u : State),
    execAll before s = .next u → .commit ∉ before → u.flt = false → u.frames.toNat < u.cfg.frameCap → h ≠ 32 →
    ∃ t, execAll (before ++ .encf h w :: after) s = .next t ∧ t.sink = s.sink ∧ t.acc = [] ∧ t.flt = true ∧
      t.cause = FaultCause.frameDimensionError.code ∧ t.frames = u.frames

/-- At every point of a run without a fault, ACC_LEN is BIT_DEPTH · 16 times the sum of the widths of the frames encoded so far
in the run, the first FRAME_CAP of those issued, and FRAMES is their number (R27, R128). -/
def Obligations.AccLengthIsTheSumOfWidths : Prop :=
  ∀ (cs : List Instr) (s t : State), execAll cs s = .next t → t.flt = false → .commit ∉ cs → s.acc = [] → s.frames = 0 →
    t.readAccLen = t.cfg.bitDepth * 16 * ((cs.filterMap encfWidth).take s.cfg.frameCap).sum ∧
    t.frames.toNat = ((cs.filterMap encfWidth).take s.cfg.frameCap).length ∧
    (t.cfg.bitDepth = 6 → t.readAccLen = 96 * ((cs.filterMap encfWidth).take s.cfg.frameCap).sum)
end

