-- ==== Sys2Proof/Laws/Decode.lean ====
section
/-! SUPPORT. What each row's bits say of a word, and what the decoder answers for a word a row selects
(spec/30_encoding.md R70, R72). -/

namespace Sys2Proof

/-- The mask of every row covers OP, so a selected word has the row's OP. -/
theorem opcode_of_selectedBy {r : Row} (hr : r ∈ opcodeMap) {w : CmdWord} (h : r.selectedBy w = true) :
    opcode w = opcode r.pattern := by
  have hmask : ∀ r ∈ opcodeMap, opcode r.mask = BitVec.allOnes 4 := by decide
  have hm := hmask r hr
  simp only [Row.selectedBy, beq_iff_eq] at h
  simp only [opcode] at hm ⊢
  rw [← h, BitVec.extractLsb'_and, hm, BitVec.and_allOnes]

/-- One row of the map at most selects a word. -/
theorem selectedBy_unique {r r' : Row} (hr : r ∈ opcodeMap) (hr' : r' ∈ opcodeMap) {w : CmdWord}
    (h : r.selectedBy w = true) (h' : r'.selectedBy w = true) : r = r' := by
  have hinj : ∀ r ∈ opcodeMap, ∀ r' ∈ opcodeMap, opcode r.pattern = opcode r'.pattern → r = r' := by decide
  exact hinj r hr r' hr' ((opcode_of_selectedBy hr h).symm.trans (opcode_of_selectedBy hr' h'))

/-- A word one row selects is selected by no other. -/
theorem not_selectedBy {r r' : Row} (hr : r ∈ opcodeMap) (hr' : r' ∈ opcodeMap) (hne : r' ≠ r) {w : CmdWord}
    (h : r.selectedBy w = true) : r'.selectedBy w = false := by
  cases h' : r'.selectedBy w with
  | false => rfl
  | true => exact absurd (selectedBy_unique hr' hr h' h) hne

theorem decode_of_rowGlut {w : CmdWord} (h : rowGlut.selectedBy w = true) :
    decode w = .command (.glut (w.extractLsb' 0 8)) := by
  simp [decode, h]

theorem decode_of_rowBitx {w : CmdWord} (h : rowBitx.selectedBy w = true) :
    decode w = .command (.bitx (w.extractLsb' 0 8) (w.extractLsb' 8 8)) := by
  simp [decode, h,
    not_selectedBy (r := rowBitx) (r' := rowGlut) (by decide) (by decide) (by decide) h]

theorem decode_of_rowPmask {w : CmdWord} (h : rowPmask.selectedBy w = true) :
    decode w = .command (.pmask (w.extractLsb' 0 3)) := by
  simp [decode, h,
    not_selectedBy (r := rowPmask) (r' := rowGlut) (by decide) (by decide) (by decide) h,
    not_selectedBy (r := rowPmask) (r' := rowBitx) (by decide) (by decide) (by decide) h]

theorem decode_of_rowPack {w : CmdWord} (h : rowPack.selectedBy w = true) :
    decode w = .command (.pack (w.extractLsb' 48 8) (pixelField w 24) (pixelField w 0)) := by
  simp [decode, h,
    not_selectedBy (r := rowPack) (r' := rowGlut) (by decide) (by decide) (by decide) h,
    not_selectedBy (r := rowPack) (r' := rowBitx) (by decide) (by decide) (by decide) h,
    not_selectedBy (r := rowPack) (r' := rowPmask) (by decide) (by decide) (by decide) h]

theorem decode_of_rowEncf {w : CmdWord} (h : rowEncf.selectedBy w = true) :
    decode w = .command (.encf (w.extractLsb' 16 16) (w.extractLsb' 0 16)) := by
  simp [decode, h,
    not_selectedBy (r := rowEncf) (r' := rowGlut) (by decide) (by decide) (by decide) h,
    not_selectedBy (r := rowEncf) (r' := rowBitx) (by decide) (by decide) (by decide) h,
    not_selectedBy (r := rowEncf) (r' := rowPmask) (by decide) (by decide) (by decide) h,
    not_selectedBy (r := rowEncf) (r' := rowPack) (by decide) (by decide) (by decide) h]

theorem decode_of_rowCommit {w : CmdWord} (h : rowCommit.selectedBy w = true) :
    decode w = .command .commit := by
  simp [decode, h,
    not_selectedBy (r := rowCommit) (r' := rowGlut) (by decide) (by decide) (by decide) h,
    not_selectedBy (r := rowCommit) (r' := rowBitx) (by decide) (by decide) (by decide) h,
    not_selectedBy (r := rowCommit) (r' := rowPmask) (by decide) (by decide) (by decide) h,
    not_selectedBy (r := rowCommit) (r' := rowPack) (by decide) (by decide) (by decide) h,
    not_selectedBy (r := rowCommit) (r' := rowEncf) (by decide) (by decide) (by decide) h]

theorem decode_of_rowAbort {w : CmdWord} (h : rowAbort.selectedBy w = true) :
    decode w = .command .abort := by
  simp [decode, h,
    not_selectedBy (r := rowAbort) (r' := rowGlut) (by decide) (by decide) (by decide) h,
    not_selectedBy (r := rowAbort) (r' := rowBitx) (by decide) (by decide) (by decide) h,
    not_selectedBy (r := rowAbort) (r' := rowPmask) (by decide) (by decide) (by decide) h,
    not_selectedBy (r := rowAbort) (r' := rowPack) (by decide) (by decide) (by decide) h,
    not_selectedBy (r := rowAbort) (r' := rowEncf) (by decide) (by decide) (by decide) h,
    not_selectedBy (r := rowAbort) (r' := rowCommit) (by decide) (by decide) (by decide) h]

theorem decode_of_rowFbwr {w : CmdWord} (h : rowFbwr.selectedBy w = true) :
    decode w = .command (.fbwr (w.extractLsb' 40 16) (w.extractLsb' 32 8) (pixelField w 0)) := by
  simp [decode, h,
    not_selectedBy (r := rowFbwr) (r' := rowGlut) (by decide) (by decide) (by decide) h,
    not_selectedBy (r := rowFbwr) (r' := rowBitx) (by decide) (by decide) (by decide) h,
    not_selectedBy (r := rowFbwr) (r' := rowPmask) (by decide) (by decide) (by decide) h,
    not_selectedBy (r := rowFbwr) (r' := rowPack) (by decide) (by decide) (by decide) h,
    not_selectedBy (r := rowFbwr) (r' := rowEncf) (by decide) (by decide) (by decide) h,
    not_selectedBy (r := rowFbwr) (r' := rowCommit) (by decide) (by decide) (by decide) h,
    not_selectedBy (r := rowFbwr) (r' := rowAbort) (by decide) (by decide) (by decide) h]

/-- A word no row selects is illegal. -/
theorem decode_of_no_row {w : CmdWord} (h : ∀ r ∈ opcodeMap, r.selectedBy w = false) :
    decode w = .illegal (illegalReason w) := by
  simp only [opcodeMap, List.mem_cons, List.not_mem_nil, or_false, forall_eq_or_imp, forall_eq] at h
  simp [decode, h]

/-- A word the decoder answers with a command is selected by the command's row. -/
theorem selectedBy_of_decode {w : CmdWord} {i : Instr} (h : decode w = .command i) : i.row.selectedBy w = true := by
  unfold decode at h
  repeat' split at h
  all_goals simp only [Decoded.command.injEq, reduceCtorEq] at h
  all_goals subst h; assumption

/-! ### A word as a number -/

/-- A field at its place is its value times the place's power of two. -/
theorem toNat_place {width : Nat} (lo : Nat) (v : BitVec width) (hfit : lo + width ≤ 64) :
    (place lo v).toNat = v.toNat * 2 ^ lo := by
  have h1 : v.toNat < 2 ^ 64 := Nat.lt_of_lt_of_le v.isLt (Nat.pow_le_pow_right (by omega) (by omega))
  have h2 : v.toNat * 2 ^ lo < 2 ^ 64 := calc
    v.toNat * 2 ^ lo < 2 ^ width * 2 ^ lo := Nat.mul_lt_mul_of_pos_right v.isLt (Nat.pow_pos (by omega))
    _ = 2 ^ (lo + width) := by rw [← Nat.pow_add, Nat.add_comm]
    _ ≤ 2 ^ 64 := Nat.pow_le_pow_right (by omega) hfit
  simp only [place, BitVec.toNat_shiftLeft, BitVec.toNat_setWidth]
  rw [Nat.mod_eq_of_lt h1, Nat.shiftLeft_eq, Nat.mod_eq_of_lt h2]

/-- An OR of a multiple of 2^k and a value below 2^k is their sum. -/
theorem toNat_or_of_lt (a b : CmdWord) (k q : Nat) (ha : a.toNat = q * 2 ^ k) (hb : b.toNat < 2 ^ k) :
    (a ||| b).toNat = a.toNat + b.toNat := by
  rw [BitVec.toNat_or, ha, Nat.mul_comm, Nat.two_pow_add_eq_or_of_lt hb]

/-- A pixel at its place. -/
theorem toNat_placePixel (lo : Nat) (p : Pixel) (hfit : lo + 24 ≤ 64) :
    (placePixel lo p).toNat = (p.r.toNat * 2 ^ 16 + p.g.toNat * 2 ^ 8 + p.b.toNat) * 2 ^ lo := by
  have hg : p.g.toNat < 2 ^ 8 := p.g.isLt
  have hb : p.b.toNat < 2 ^ 8 := p.b.isLt
  have e1 := toNat_place (lo + 16) p.r (by omega)
  have e2 := toNat_place (lo + 8) p.g (by omega)
  have e3 := toNat_place lo p.b (by omega)
  have e12 : (place (lo + 16) p.r ||| place (lo + 8) p.g).toNat = (p.r.toNat * 2 ^ 8 + p.g.toNat) * 2 ^ (lo + 8) := by
    rw [toNat_or_of_lt _ _ (lo + 16) p.r.toNat e1, e1, e2]
    · rw [show lo + 16 = lo + 8 + 8 from rfl, Nat.pow_add 2 (lo + 8) 8]; ring
    · rw [e2, show lo + 16 = 8 + (lo + 8) by omega, Nat.pow_add 2 8]
      exact Nat.mul_lt_mul_of_pos_right hg (Nat.pow_pos (by omega))
  rw [placePixel, toNat_or_of_lt _ _ (lo + 8) _ e12, e12, e3]
  · rw [Nat.pow_add]; ring
  · rw [e3, show lo + 8 = 8 + lo by omega, Nat.pow_add 2 8]
    exact Nat.mul_lt_mul_of_pos_right hb (Nat.pow_pos (by omega))

end Sys2Proof
end

