-- ==== Sys2Proof/Laws/State.lean ====
section
/-! SUPPORT. What each named operation does to each field of State: one lemma per field per update, so that no proof unfolds a
record update. -/

namespace Sys2Proof.Machine

variable (s : State)

/-! ### `State.writePixel` -/

@[simp] theorem State.writePixel_cfg (at_ : Coord) (p : Pixel) : (s.writePixel at_ p).cfg = s.cfg := rfl
@[simp] theorem State.writePixel_fb (at_ : Coord) (p : Pixel) : (s.writePixel at_ p).fb = s.fb.write at_ p := rfl
@[simp] theorem State.writePixel_acc (at_ : Coord) (p : Pixel) : (s.writePixel at_ p).acc = s.acc := rfl
@[simp] theorem State.writePixel_frames (at_ : Coord) (p : Pixel) : (s.writePixel at_ p).frames = s.frames := rfl
@[simp] theorem State.writePixel_status (at_ : Coord) (p : Pixel) : (s.writePixel at_ p).status = s.status := rfl
@[simp] theorem State.writePixel_res (at_ : Coord) (p : Pixel) : (s.writePixel at_ p).res = s.res := rfl
@[simp] theorem State.writePixel_finfo (at_ : Coord) (p : Pixel) : (s.writePixel at_ p).finfo = s.finfo := rfl
@[simp] theorem State.writePixel_sink (at_ : Coord) (p : Pixel) : (s.writePixel at_ p).sink = s.sink := rfl
@[simp] theorem State.writePixel_hostIn (at_ : Coord) (p : Pixel) : (s.writePixel at_ p).hostIn = s.hostIn := rfl

/-! ### `State.writeResult` -/

@[simp] theorem State.writeResult_cfg (v : Byte) : (s.writeResult v).cfg = s.cfg := rfl
@[simp] theorem State.writeResult_fb (v : Byte) : (s.writeResult v).fb = s.fb := rfl
@[simp] theorem State.writeResult_acc (v : Byte) : (s.writeResult v).acc = s.acc := rfl
@[simp] theorem State.writeResult_frames (v : Byte) : (s.writeResult v).frames = s.frames := rfl
@[simp] theorem State.writeResult_status (v : Byte) : (s.writeResult v).status = setRv s.status := rfl
@[simp] theorem State.writeResult_res (v : Byte) : (s.writeResult v).res = v := rfl
@[simp] theorem State.writeResult_finfo (v : Byte) : (s.writeResult v).finfo = s.finfo := rfl
@[simp] theorem State.writeResult_sink (v : Byte) : (s.writeResult v).sink = s.sink := rfl
@[simp] theorem State.writeResult_hostIn (v : Byte) : (s.writeResult v).hostIn = s.hostIn := rfl

/-! ### `State.appendFrame` -/

@[simp] theorem State.appendFrame_cfg (out : List Byte) : (s.appendFrame out).cfg = s.cfg := rfl
@[simp] theorem State.appendFrame_fb (out : List Byte) : (s.appendFrame out).fb = s.fb := rfl
@[simp] theorem State.appendFrame_acc (out : List Byte) : (s.appendFrame out).acc = s.acc ++ out := rfl
@[simp] theorem State.appendFrame_frames (out : List Byte) : (s.appendFrame out).frames = s.frames + 1 := rfl
@[simp] theorem State.appendFrame_status (out : List Byte) : (s.appendFrame out).status = s.status := rfl
@[simp] theorem State.appendFrame_res (out : List Byte) : (s.appendFrame out).res = s.res := rfl
@[simp] theorem State.appendFrame_finfo (out : List Byte) : (s.appendFrame out).finfo = s.finfo := rfl
@[simp] theorem State.appendFrame_sink (out : List Byte) : (s.appendFrame out).sink = s.sink := rfl
@[simp] theorem State.appendFrame_hostIn (out : List Byte) : (s.appendFrame out).hostIn = s.hostIn := rfl

/-! ### `State.deliver` -/

@[simp] theorem State.deliver_cfg : (s.deliver).cfg = s.cfg := rfl
@[simp] theorem State.deliver_fb : (s.deliver).fb = s.fb := rfl
@[simp] theorem State.deliver_acc : (s.deliver).acc = [] := rfl
@[simp] theorem State.deliver_frames : (s.deliver).frames = 0 := rfl
@[simp] theorem State.deliver_status : (s.deliver).status = s.status := rfl
@[simp] theorem State.deliver_res : (s.deliver).res = s.res := rfl
@[simp] theorem State.deliver_finfo : (s.deliver).finfo = s.finfo := rfl
@[simp] theorem State.deliver_sink : (s.deliver).sink = s.sink ++ [s.acc] := rfl
@[simp] theorem State.deliver_hostIn : (s.deliver).hostIn = s.hostIn := rfl

/-! ### `State.raise` -/

@[simp] theorem State.raise_cfg (f : FaultCause) (cmd : CmdWord) : (s.raise f cmd).cfg = s.cfg := rfl
@[simp] theorem State.raise_fb (f : FaultCause) (cmd : CmdWord) : (s.raise f cmd).fb = s.fb := rfl
@[simp] theorem State.raise_acc (f : FaultCause) (cmd : CmdWord) : (s.raise f cmd).acc = [] := rfl
@[simp] theorem State.raise_frames (f : FaultCause) (cmd : CmdWord) : (s.raise f cmd).frames = s.frames := rfl
@[simp] theorem State.raise_status (f : FaultCause) (cmd : CmdWord) : (s.raise f cmd).status = enterFault f.code s.status := rfl
@[simp] theorem State.raise_res (f : FaultCause) (cmd : CmdWord) : (s.raise f cmd).res = s.res := rfl
@[simp] theorem State.raise_finfo (f : FaultCause) (cmd : CmdWord) : (s.raise f cmd).finfo = cmd := rfl
@[simp] theorem State.raise_sink (f : FaultCause) (cmd : CmdWord) : (s.raise f cmd).sink = s.sink := rfl
@[simp] theorem State.raise_hostIn (f : FaultCause) (cmd : CmdWord) : (s.raise f cmd).hostIn = s.hostIn := rfl

/-! ### `State.applyReset` -/

@[simp] theorem State.applyReset_cfg : (s.applyReset).cfg = s.cfg := rfl
@[simp] theorem State.applyReset_fb : (s.applyReset).fb = [] := rfl
@[simp] theorem State.applyReset_acc : (s.applyReset).acc = [] := rfl
@[simp] theorem State.applyReset_frames : (s.applyReset).frames = 0 := rfl
@[simp] theorem State.applyReset_status : (s.applyReset).status = 0 := rfl
@[simp] theorem State.applyReset_res : (s.applyReset).res = 0 := rfl
@[simp] theorem State.applyReset_finfo : (s.applyReset).finfo = 0 := rfl
@[simp] theorem State.applyReset_sink : (s.applyReset).sink = s.sink := rfl
@[simp] theorem State.applyReset_hostIn : (s.applyReset).hostIn = s.hostIn := rfl

/-! ### `State.issueNext` -/

@[simp] theorem State.issueNext_cfg (a : HostAction) : (s.issueNext a).cfg = s.cfg := rfl
@[simp] theorem State.issueNext_fb (a : HostAction) : (s.issueNext a).fb = s.fb := rfl
@[simp] theorem State.issueNext_acc (a : HostAction) : (s.issueNext a).acc = s.acc := rfl
@[simp] theorem State.issueNext_frames (a : HostAction) : (s.issueNext a).frames = s.frames := rfl
@[simp] theorem State.issueNext_status (a : HostAction) : (s.issueNext a).status = s.status := rfl
@[simp] theorem State.issueNext_res (a : HostAction) : (s.issueNext a).res = s.res := rfl
@[simp] theorem State.issueNext_finfo (a : HostAction) : (s.issueNext a).finfo = s.finfo := rfl
@[simp] theorem State.issueNext_sink (a : HostAction) : (s.issueNext a).sink = s.sink := rfl
@[simp] theorem State.issueNext_hostIn (a : HostAction) : (s.issueNext a).hostIn = a :: s.hostIn := rfl

/-! ### `State.reset` -/

@[simp] theorem State.reset_cfg : State.reset.cfg = Config.block := rfl
@[simp] theorem State.reset_fb : State.reset.fb = [] := rfl
@[simp] theorem State.reset_acc : State.reset.acc = [] := rfl
@[simp] theorem State.reset_frames : State.reset.frames = 0 := rfl
@[simp] theorem State.reset_status : State.reset.status = 0 := rfl
@[simp] theorem State.reset_res : State.reset.res = 0 := rfl
@[simp] theorem State.reset_finfo : State.reset.finfo = 0 := rfl
@[simp] theorem State.reset_sink : State.reset.sink = [] := rfl
@[simp] theorem State.reset_hostIn : State.reset.hostIn = [] := rfl

end Sys2Proof.Machine
end

