-- ==== Sys2Proof/Laws/Flags.lean ====
section
/-! SUPPORT. The fields of STATUS after each way a command writes STATUS, and of a state after each named operation. -/

namespace Sys2Proof.Machine

/-! ### STATUS -/

@[simp] theorem statusFlt_setRv (w : BitVec 8) : statusFlt (setRv w) = statusFlt w := by
  simp [statusFlt, setRv]

@[simp] theorem statusRv_setRv (w : BitVec 8) : statusRv (setRv w) = true := by
  simp [statusRv, setRv]

@[simp] theorem statusCause_setRv (w : BitVec 8) : statusCause (setRv w) = statusCause w := by
  revert w; decide

@[simp] theorem statusReserved_setRv (w : BitVec 8) : statusReserved (setRv w) = statusReserved w := by
  revert w; decide

@[simp] theorem statusFlt_enterFault (c : BitVec 4) (w : BitVec 8) : statusFlt (enterFault c w) = true := by
  simp only [enterFault]
  generalize statusReserved w = r
  revert c r; decide

@[simp] theorem statusRv_enterFault (c : BitVec 4) (w : BitVec 8) : statusRv (enterFault c w) = false := by
  simp only [enterFault]
  generalize statusReserved w = r
  revert c r; decide

@[simp] theorem statusCause_enterFault (c : BitVec 4) (w : BitVec 8) : statusCause (enterFault c w) = c := by
  simp only [enterFault]
  generalize statusReserved w = r
  revert c r; decide

@[simp] theorem statusReserved_enterFault (c : BitVec 4) (w : BitVec 8) :
    statusReserved (enterFault c w) = statusReserved w := by
  simp only [enterFault]
  generalize statusReserved w = r
  revert c r; decide

/-! ### FLT, RV and CAUSE of a state -/

variable (s : State)

@[simp] theorem State.flt_writePixel (at_ : Coord) (p : Pixel) : (s.writePixel at_ p).flt = s.flt := rfl
@[simp] theorem State.rv_writePixel (at_ : Coord) (p : Pixel) : (s.writePixel at_ p).rv = s.rv := rfl
@[simp] theorem State.cause_writePixel (at_ : Coord) (p : Pixel) : (s.writePixel at_ p).cause = s.cause := rfl

@[simp] theorem State.flt_writeResult (v : Byte) : (s.writeResult v).flt = s.flt := statusFlt_setRv s.status
@[simp] theorem State.rv_writeResult (v : Byte) : (s.writeResult v).rv = true := statusRv_setRv s.status
@[simp] theorem State.cause_writeResult (v : Byte) : (s.writeResult v).cause = s.cause := statusCause_setRv s.status

@[simp] theorem State.flt_appendFrame (out : List Byte) : (s.appendFrame out).flt = s.flt := rfl
@[simp] theorem State.rv_appendFrame (out : List Byte) : (s.appendFrame out).rv = s.rv := rfl
@[simp] theorem State.cause_appendFrame (out : List Byte) : (s.appendFrame out).cause = s.cause := rfl

@[simp] theorem State.flt_deliver : s.deliver.flt = s.flt := rfl
@[simp] theorem State.rv_deliver : s.deliver.rv = s.rv := rfl
@[simp] theorem State.cause_deliver : s.deliver.cause = s.cause := rfl

@[simp] theorem State.flt_raise (f : FaultCause) (cmd : CmdWord) : (s.raise f cmd).flt = true :=
  statusFlt_enterFault f.code s.status
@[simp] theorem State.rv_raise (f : FaultCause) (cmd : CmdWord) : (s.raise f cmd).rv = false :=
  statusRv_enterFault f.code s.status
@[simp] theorem State.cause_raise (f : FaultCause) (cmd : CmdWord) : (s.raise f cmd).cause = f.code :=
  statusCause_enterFault f.code s.status

@[simp] theorem State.flt_applyReset : s.applyReset.flt = false :=
  (by decide : statusFlt 0 = false)
@[simp] theorem State.rv_applyReset : s.applyReset.rv = false :=
  (by decide : statusRv 0 = false)
@[simp] theorem State.cause_applyReset : s.applyReset.cause = 0 :=
  (by decide : statusCause 0 = 0)

@[simp] theorem State.flt_issueNext (a : HostAction) : (s.issueNext a).flt = s.flt := rfl
@[simp] theorem State.rv_issueNext (a : HostAction) : (s.issueNext a).rv = s.rv := rfl
@[simp] theorem State.cause_issueNext (a : HostAction) : (s.issueNext a).cause = s.cause := rfl

/-- A port read of RES after a result is written. -/
@[simp] theorem State.readRes_writeResult (v : Byte) : (s.writeResult v).readRes = some v := by
  simp [State.readRes]

theorem readMask_setRv (w : BitVec 8) : setRv w &&& 0xF3 = (w &&& 0xF3) ||| 0x02 := by
  revert w; decide

/-- A port read of STATUS after a result is written. -/
@[simp] theorem State.readStatus_writeResult (v : Byte) : (s.writeResult v).readStatus = s.readStatus ||| 0x02 :=
  readMask_setRv s.status

end Sys2Proof.Machine
end

