-- ==== Sys2Proof/Laws/Memory.lean ====
section
/-! SUPPORT. The frame buffer: a read after a write, and the canonical form, which every operation keeps. -/

namespace Sys2Proof.Machine

theorem Coord.before_iff (a b : Coord) : a.before b = true ↔ a.y < b.y ∨ (a.y = b.y ∧ a.x < b.x) := by
  simp [Coord.before]

theorem Coord.before_irrefl (a : Coord) : a.before a = false := by simp [Coord.before]

theorem Coord.before_trans {a b c : Coord} (hab : a.before b = true) (hbc : b.before c = true) :
    a.before c = true := by
  rw [Coord.before_iff] at *; omega

/-- Two cells are the same or one stands before the other. -/
theorem Coord.before_of_ne {a b : Coord} (hne : a ≠ b) (hba : a.before b = false) : b.before a = true := by
  cases a; cases b
  simp only [Coord.before, Coord.mk.injEq, ne_eq, Bool.or_eq_false_iff, Bool.and_eq_false_iff, decide_eq_false_iff_not,
    Bool.or_eq_true, Bool.and_eq_true, decide_eq_true_eq] at *
  omega

/-- A read of the cell just written gives the pixel written. -/
@[simp] theorem Memory.read_write_same (m : Memory) (c : Coord) (p : Pixel) : (m.write c p).read c = some p := by
  induction m with
  | nil => simp [Memory.write, Memory.read]
  | cons e rest ih =>
    obtain ⟨k, q⟩ := e
    simp only [Memory.write]
    split
    · simp [Memory.read]
    · split
      · simp [Memory.read]
      · simp [Memory.read, *]

/-- A write leaves every other cell alone. -/
theorem Memory.read_write_other (m : Memory) {c d : Coord} (p : Pixel) (h : d ≠ c) :
    (m.write c p).read d = m.read d := by
  induction m with
  | nil => simp [Memory.write, Memory.read, h.symm]
  | cons e rest ih =>
    obtain ⟨k, q⟩ := e
    simp only [Memory.write]
    split
    · next hk => subst hk; simp [Memory.read, h.symm]
    · split
      · simp [Memory.read, h.symm]
      · simp [Memory.read, ih]

/-- What a write lists: the pixel written, and cells listed before. -/
theorem Memory.mem_write {m : Memory} {c : Coord} {p : Pixel} {e : Coord × Pixel} (h : e ∈ m.write c p) :
    e = (c, p) ∨ e ∈ m := by
  induction m with
  | nil => simpa [Memory.write] using h
  | cons e' rest ih =>
    obtain ⟨k, q⟩ := e'
    simp only [Memory.write] at h
    split at h
    · rcases List.mem_cons.mp h with h | h
      · exact .inl h
      · exact .inr (List.mem_cons_of_mem _ h)
    · split at h
      · rcases List.mem_cons.mp h with h | h
        · exact .inl h
        · exact .inr h
      · rcases List.mem_cons.mp h with h | h
        · exact .inr (h ▸ List.mem_cons_self)
        · exact (ih h).imp_right (List.mem_cons_of_mem _)

/-- A write keeps the canonical form. -/
theorem Memory.write_wf {m : Memory} (c : Coord) (p : Pixel) (h : m.wf) : (m.write c p).wf := by
  induction m with
  | nil => simp [Memory.write]
  | cons e rest ih =>
    obtain ⟨k, q⟩ := e
    obtain ⟨hk, hrest⟩ := List.pairwise_cons.mp h
    simp only [Memory.write]
    split
    · next heq => subst heq; exact List.pairwise_cons.mpr ⟨hk, hrest⟩
    · next hne =>
      split
      · next hb =>
        refine List.pairwise_cons.mpr ⟨fun e he => ?_, h⟩
        rcases List.mem_cons.mp he with rfl | he
        · exact hb
        · exact Coord.before_trans hb (hk e he)
      · next hb =>
        refine List.pairwise_cons.mpr ⟨fun e he => ?_, ih hrest⟩
        rcases Memory.mem_write he with rfl | he
        · exact Coord.before_of_ne (fun heq => hne heq.symm) (by simpa using hb)
        · exact hk e he

/-- The frame buffer after reset is in canonical form. -/
theorem Memory.reset_wf : State.reset.fb.wf := List.Pairwise.nil

/-- Every named operation keeps the canonical form. -/
theorem Memory.operations_keep_wf (s : State) (h : s.fb.wf) :
    (∀ at_ p, (s.writePixel at_ p).fb.wf) ∧ (∀ v, (s.writeResult v).fb.wf) ∧ (∀ out, (s.appendFrame out).fb.wf) ∧
    s.deliver.fb.wf ∧ (∀ f cmd, (s.raise f cmd).fb.wf) ∧ s.applyReset.fb.wf ∧ (∀ a, (s.issueNext a).fb.wf) :=
  ⟨fun at_ p => Memory.write_wf at_ p h, fun _ => h, fun _ => h, h, fun _ _ => h, Memory.reset_wf, fun _ => h⟩

end Sys2Proof.Machine
end

