-- ==== Sys2Proof/Laws/PerInstr.lean ====
section
/-! SUPPORT. Statements made per command (LAWS.json): the family `EncodedWord` says that the word of a command is selected by
the command's own row (every fixed bit right, every reserved bit 0) and that the command's operands fit their fields. -/

namespace Sys2Proof.Laws.EncodedWord

/-- A value fits a field of its own width. -/
theorem fits_toNat {width : Nat} (v : BitVec width) : fits width v.toNat = true := by
  simp only [fits, decide_eq_true_eq]; exact v.isLt

/-- The word of the command meets the mask and match of its row, and the command is well-formed. -/
def Statement (i : Instr) : Prop := i.row.selectedBy (encode i) = true ∧ i.wellFormed = true

theorem glut (v : Byte) : Statement (.glut v) := by
  refine ⟨?_, by simp [Instr.wellFormed, Instr.operands, fits_toNat]⟩
  simp only [Instr.row, Row.selectedBy, rowGlut, encode, place, beq_iff_eq]
  apply BitVec.eq_of_getLsbD_eq
  intro k hk
  interval_cases k <;> simp

theorem bitx (c m : Byte) : Statement (.bitx c m) := by
  refine ⟨?_, by simp [Instr.wellFormed, Instr.operands, fits_toNat]⟩
  simp only [Instr.row, Row.selectedBy, rowBitx, encode, place, beq_iff_eq]
  apply BitVec.eq_of_getLsbD_eq
  intro k hk
  interval_cases k <;> simp

theorem pmask (j : BitVec 3) : Statement (.pmask j) := by
  refine ⟨?_, by simp [Instr.wellFormed, Instr.operands, fits_toNat]⟩
  simp only [Instr.row, Row.selectedBy, rowPmask, encode, place, beq_iff_eq]
  apply BitVec.eq_of_getLsbD_eq
  intro k hk
  interval_cases k <;> simp

theorem pack (m : Byte) (a b : Pixel) : Statement (.pack m a b) := by
  refine ⟨?_, by simp [Instr.wellFormed, Instr.operands, fits_toNat]⟩
  simp only [Instr.row, Row.selectedBy, rowPack, encode, place, placePixel, beq_iff_eq]
  apply BitVec.eq_of_getLsbD_eq
  intro k hk
  interval_cases k <;> simp

theorem encf (h w : BitVec 16) : Statement (.encf h w) := by
  refine ⟨?_, by simp [Instr.wellFormed, Instr.operands, fits_toNat]⟩
  simp only [Instr.row, Row.selectedBy, rowEncf, encode, place, beq_iff_eq]
  apply BitVec.eq_of_getLsbD_eq
  intro k hk
  interval_cases k <;> simp

theorem commit : Statement .commit := by
  unfold Statement; decide

theorem abort : Statement .abort := by
  unfold Statement; decide

theorem fbwr (x : BitVec 16) (y : Byte) (p : Pixel) : Statement (.fbwr x y p) := by
  refine ⟨?_, by simp [Instr.wellFormed, Instr.operands, fits_toNat]⟩
  simp only [Instr.row, Row.selectedBy, rowFbwr, encode, place, placePixel, beq_iff_eq]
  apply BitVec.eq_of_getLsbD_eq
  intro k hk
  interval_cases k <;> simp

end Sys2Proof.Laws.EncodedWord
end

