-- ==== Sys2Proof/Laws/Sequencer.lean ====
section
/-! SUPPORT. The loops of ENCF (spec/43_frame_sequencer.md R120): which positions they visit, and what packing a list of
positions answers. -/

namespace Sys2Proof.Machine

@[simp] theorem Config.half_eq (c : Config) : c.half = 16 := by simp [Config.half, c.panelHeight_ok]

/-- The positions of a frame. -/
theorem mem_frameOrder {c : Config} {w : Nat} {p : Position} :
    p ∈ frameOrder c w ↔ p.j < c.bitDepth ∧ p.y < 16 ∧ p.x < w := by
  obtain ⟨j, y, x⟩ := p
  simp only [frameOrder, Config.half_eq, List.mem_flatMap, List.mem_map, List.mem_range, Position.mk.injEq]
  constructor
  · rintro ⟨j', hj, y', hy, x', hx, rfl, rfl, rfl⟩
    exact ⟨hj, hy, hx⟩
  · rintro ⟨hj, hy, hx⟩
    exact ⟨j, hj, y, hy, x, hx, rfl, rfl, rfl⟩

/-- What one position answers. -/
theorem packAt_eq_ok {c : Config} {fb : Memory} {p : Position} {byte : Byte} :
    packAt c fb p = .ok byte ↔
      ∃ a b, fb.read ⟨p.x, p.y⟩ = some a ∧ fb.read ⟨p.x, p.y + c.half⟩ = some b ∧
        byte = packByte c (planeMask c p.j) a b := by
  unfold packAt
  cases fb.read ⟨p.x, p.y⟩ with
  | none => simp
  | some a => cases fb.read ⟨p.x, p.y + c.half⟩ <;> simp [eq_comm]

theorem packAt_eq_error {c : Config} {fb : Memory} {p : Position} {cell : Coord} :
    packAt c fb p = .error cell ↔
      (fb.read ⟨p.x, p.y⟩ = none ∧ cell = ⟨p.x, p.y⟩) ∨
      (fb.read ⟨p.x, p.y⟩ ≠ none ∧ fb.read ⟨p.x, p.y + c.half⟩ = none ∧ cell = ⟨p.x, p.y + c.half⟩) := by
  unfold packAt
  cases fb.read ⟨p.x, p.y⟩ with
  | none => simp [eq_comm]
  | some a => cases fb.read ⟨p.x, p.y + c.half⟩ <;> simp [eq_comm]

/-- Packing a list of positions gives a byte for each, in order. -/
theorem packAll_eq_ok {c : Config} {fb : Memory} {ps : List Position} {out : List Byte} :
    packAll c fb ps = .ok out ↔ ps.map (packAt c fb) = out.map .ok := by
  induction ps generalizing out with
  | nil => cases out <;> simp [packAll]
  | cons p rest ih =>
    simp only [packAll, List.map_cons]
    cases hp : packAt c fb p with
    | error cell => cases out <;> simp
    | ok byte =>
      cases hr : packAll c fb rest with
      | error cell =>
        simp only [reduceCtorEq, false_iff]
        cases out with
        | nil => simp
        | cons b bs =>
          intro h
          simp only [List.map_cons, List.cons.injEq] at h
          have := ih.mpr h.2
          simp [hr] at this
      | ok bytes =>
        cases out with
        | nil => simp
        | cons b bs =>
          have := ih (out := bs)
          simp only [hr, Except.ok.injEq] at this
          simp [this]

/-- A list of positions that cannot be packed stops at its first position that cannot. -/
theorem packAll_eq_error {c : Config} {fb : Memory} {ps : List Position} {cell : Coord} :
    packAll c fb ps = .error cell ↔
      ∃ before p after, ps = before ++ p :: after ∧ packAt c fb p = .error cell ∧
        ∀ q ∈ before, ∃ byte, packAt c fb q = .ok byte := by
  induction ps with
  | nil => simp [packAll]
  | cons p rest ih =>
    simp only [packAll]
    cases hp : packAt c fb p with
    | error cell' =>
      simp only [Except.error.injEq]
      constructor
      · rintro rfl
        exact ⟨[], p, rest, rfl, hp, by simp⟩
      · rintro ⟨before, q, after, heq, hq, hb⟩
        cases before with
        | nil =>
          simp only [List.nil_append, List.cons.injEq] at heq
          rw [← heq.1, hp] at hq
          simpa using hq
        | cons b bs =>
          simp only [List.cons_append, List.cons.injEq] at heq
          obtain ⟨byte, hbyte⟩ := hb b List.mem_cons_self
          rw [← heq.1, hp] at hbyte
          cases hbyte
    | ok byte =>
      have hiff : (match packAll c fb rest with
          | .error cell => Except.error cell
          | .ok bytes => .ok (byte :: bytes)) = .error cell ↔ packAll c fb rest = .error cell := by
        cases packAll c fb rest <;> simp
      refine hiff.trans (ih.trans ?_)
      constructor
      · rintro ⟨before, q, after, heq, hq, hb⟩
        refine ⟨p :: before, q, after, by simp [heq], hq, fun r hr => ?_⟩
        rcases List.mem_cons.mp hr with rfl | hr
        · exact ⟨byte, hp⟩
        · exact hb r hr
      · rintro ⟨before, q, after, heq, hq, hb⟩
        cases before with
        | nil =>
          simp only [List.nil_append, List.cons.injEq] at heq
          rw [← heq.1, hp] at hq
          cases hq
        | cons b bs =>
          simp only [List.cons_append, List.cons.injEq] at heq
          exact ⟨bs, q, after, heq.2, hq, fun r hr => hb r (List.mem_cons_of_mem _ hr)⟩

/-- The mask of a plane of the block in closed form (R91). -/
theorem planeMask_eq (c : Config) {j : Nat} (h : j < c.bitDepth) :
    planeMask c j = BitVec.ofNat 8 (1 <<< (7 - j)) := by
  have h7 := c.bitDepth_ok.2
  simp only [planeMask, maskTable, maskSequence, List.getD_eq_getElem?_getD, List.getElem?_map,
    List.getElem?_range h, Option.map_some, Option.getD_some]
  congr 2
  omega

/-- How many positions a frame has. -/
theorem length_frameOrder (c : Config) (w : Nat) : (frameOrder c w).length = c.bitDepth * 16 * w := by
  simp [frameOrder, List.length_flatMap, Nat.mul_assoc]
  left
  ring

/-- An element of a list of blocks of one length. -/
theorem getElem?_flatMap_range {α : Type} (n m : Nat) (f : Nat → List α) (hf : ∀ i, (f i).length = m) {i k : Nat}
    (hi : i < n) (hk : k < m) : ((List.range n).flatMap f)[i * m + k]? = (f i)[k]? := by
  induction n with
  | zero => omega
  | succ n ih =>
    have hl : ((List.range n).flatMap f).length = n * m := by simp [List.length_flatMap, hf]
    rw [List.range_succ, List.flatMap_append]
    by_cases hin : i < n
    · have hle : (i + 1) * m ≤ n * m := Nat.mul_le_mul_right _ hin
      rw [Nat.add_mul] at hle
      rw [List.getElem?_append_left (by rw [hl]; omega)]
      exact ih hin
    · obtain rfl : i = n := by omega
      rw [List.getElem?_append_right (by rw [hl]; omega), hl]
      simp

/-- Where a position stands in the order of a frame (R122). -/
theorem getElem?_frameOrder (c : Config) (w : Nat) {j y x : Nat} (hj : j < c.bitDepth) (hy : y < 16) (hx : x < w) :
    (frameOrder c w)[(j * 16 + y) * w + x]? = some ⟨j, y, x⟩ := by
  have e : (j * 16 + y) * w + x = j * (16 * w) + (y * w + x) := by ring
  have hle : (y + 1) * w ≤ 16 * w := Nat.mul_le_mul_right _ hy
  rw [Nat.add_mul] at hle
  rw [e, frameOrder, getElem?_flatMap_range _ (16 * w) _ (by intro i; simp [List.length_flatMap]; ring) hj (by omega),
    Config.half_eq, getElem?_flatMap_range _ w _ (by simp) hy hx]
  simp [hx]

end Sys2Proof.Machine
end

