-- ==== Sys2Proof/Laws/Step.lean ====
section
/-! SUPPORT. Once and for all what a command and a step can do: the inversion lemmas that every statement over all commands is
proved from, and what each shared operation answers. -/

namespace Sys2Proof.Machine

/-! ### Shared operations -/

/-- The guard of every command: no effect in the fault state, else the command. -/
theorem whenRunning_of_flt {s : State} (body : Result) (h : s.flt = true) : whenRunning s body = .next s := by
  simp [whenRunning, h]

theorem whenRunning_of_running {s : State} (body : Result) (h : s.flt = false) : whenRunning s body = body := by
  simp [whenRunning, h]

/-- What the guard can answer. -/
theorem whenRunning_eq {s : State} {body r : Result} (h : whenRunning s body = r) :
    (s.flt = true ∧ r = .next s) ∨ (s.flt = false ∧ r = body) := by
  unfold whenRunning at h
  split at h
  · next hf => exact .inl ⟨hf, h.symm⟩
  · next hf => exact .inr ⟨by simpa using hf, h.symm⟩

/-- What an illegal word does. -/
theorem execIllegal_next {cmd : CmdWord} {s t : State} (h : execIllegal cmd s = .next t) :
    (s.flt = true ∧ t = s) ∨ (s.flt = false ∧ t = s.raise .illegalCommand cmd) := by
  rcases whenRunning_eq h with ⟨hf, ht⟩ | ⟨hf, ht⟩
  · exact .inl ⟨hf, by simpa using ht⟩
  · exact .inr ⟨hf, by simpa using ht⟩

/-- What the command port gives. -/
theorem takeAction_eq (s : State) :
    (s.hostIn = [] ∧ s.takeAction = none) ∨
    ∃ a rest, s.hostIn = a :: rest ∧ s.takeAction = some (a, { s with hostIn := rest }) := by
  unfold State.takeAction
  split
  · next h => exact .inl ⟨h, rfl⟩
  · next a rest h => exact .inr ⟨a, rest, h, rfl⟩

/-! ### Commands -/

/-- Everything a command can do when it answers a next state. -/
theorem exec_next {i : Instr} {s t : State} (h : exec i s = .next t) :
    (s.flt = true ∧ t = s) ∨
    (s.flt = false ∧
      ((∃ v, t = s.writeResult v ∧
          ((∃ v, i = .glut v) ∨ (∃ c m, i = .bitx c m) ∨ (∃ j, i = .pmask j) ∨ ∃ m a b, i = .pack m a b)) ∨
       (∃ j, i = .pmask j ∧ planeInRange s.cfg j = false ∧ t = s.raise .illegalOperand (encode i)) ∨
       (∃ x y p, i = .fbwr x y p ∧ coordInRange s.cfg x y = true ∧ t = s.writePixel ⟨x.toNat, y.toNat⟩ p) ∨
       (∃ x y p, i = .fbwr x y p ∧ coordInRange s.cfg x y = false ∧ t = s.raise .illegalOperand (encode i)) ∨
       (∃ h w, i = .encf h w ∧ s.cfg.frameCap ≤ s.frames.toNat ∧ t = s) ∨
       (∃ h w, i = .encf h w ∧ s.frames.toNat < s.cfg.frameCap ∧ heightAccepted s.cfg h = false ∧
          t = s.raise .frameDimensionError (encode i)) ∨
       (∃ h w, i = .encf h w ∧ s.frames.toNat < s.cfg.frameCap ∧ heightAccepted s.cfg h = true ∧
          widthAccepted s.cfg w = false ∧ t = s.raise .illegalOperand (encode i)) ∨
       (∃ h w out, i = .encf h w ∧ s.frames.toNat < s.cfg.frameCap ∧ heightAccepted s.cfg h = true ∧
          widthAccepted s.cfg w = true ∧ encodeFrame s.cfg w.toNat s.fb = .ok out ∧ t = s.appendFrame out) ∨
       (i = .commit ∧ t = s.deliver) ∨
       (i = .abort ∧ t = s.raise .sourceReadError (encode i)))) := by
  cases i <;>
    simp only [exec, execGlut, execBitx, execPmask, execPack, execEncf, execCommit, execAbort, execFbwr] at h <;>
    rcases whenRunning_eq h with ⟨hf, ht⟩ | ⟨hf, ht⟩ <;>
    first | exact .inl ⟨hf, by simpa using ht⟩ | skip
  case glut.inr v => exact .inr ⟨hf, .inl ⟨_, by simpa using ht, .inl ⟨v, rfl⟩⟩⟩
  case bitx.inr c m => exact .inr ⟨hf, .inl ⟨_, by simpa using ht, .inr (.inl ⟨c, m, rfl⟩)⟩⟩
  case pmask.inr j =>
    split at ht
    · exact .inr ⟨hf, .inl ⟨_, by simpa using ht, .inr (.inr (.inl ⟨j, rfl⟩))⟩⟩
    · next hj => exact .inr ⟨hf, .inr (.inl ⟨j, rfl, by simpa using hj, by simpa using ht⟩)⟩
  case pack.inr m a b => exact .inr ⟨hf, .inl ⟨_, by simpa using ht, .inr (.inr (.inr ⟨m, a, b, rfl⟩))⟩⟩
  case encf.inr hh w =>
    refine .inr ⟨hf, ?_⟩
    split at ht
    · next hc => exact .inr (.inr (.inr (.inr (.inl ⟨hh, w, rfl, hc, by simpa using ht⟩))))
    · next hc =>
      have hc : s.frames.toNat < s.cfg.frameCap := by omega
      split at ht
      · next hh' =>
        exact .inr (.inr (.inr (.inr (.inr (.inl ⟨hh, w, rfl, hc, by simpa using hh', by simpa using ht⟩)))))
      · next hh' =>
        split at ht
        · next hw =>
          exact .inr (.inr (.inr (.inr (.inr (.inr
            (.inl ⟨hh, w, rfl, hc, by simpa using hh', by simpa using hw, by simpa using ht⟩))))))
        · next hw =>
          split at ht
          · exact absurd ht (by simp)
          · next out hout =>
            exact .inr (.inr (.inr (.inr (.inr (.inr (.inr
              (.inl ⟨hh, w, out, rfl, hc, by simpa using hh', by simpa using hw, hout, by simpa using ht⟩)))))))
  case commit.inr =>
    exact .inr ⟨hf, .inr (.inr (.inr (.inr (.inr (.inr (.inr (.inr (.inl ⟨by simp, by simpa using ht⟩))))))))⟩
  case abort.inr =>
    exact .inr ⟨hf, .inr (.inr (.inr (.inr (.inr (.inr (.inr (.inr (.inr ⟨by simp, by simpa using ht⟩))))))))⟩
  case fbwr.inr x y p =>
    split at ht
    · next hx => exact .inr ⟨hf, .inr (.inr (.inl ⟨x, y, p, rfl, hx, by simpa using ht⟩))⟩
    · next hx => exact .inr ⟨hf, .inr (.inr (.inr (.inl ⟨x, y, p, rfl, by simpa using hx, by simpa using ht⟩)))⟩

/-- The fault state: a command has no effect. -/
theorem exec_of_flt (i : Instr) {s : State} (h : s.flt = true) : exec i s = .next s := by
  cases i <;>
    simp only [exec, execGlut, execBitx, execPmask, execPack, execEncf, execCommit, execAbort, execFbwr] <;>
    exact whenRunning_of_flt _ h

/-- No command changes the configuration or what the host has still to do. -/
theorem exec_keeps_cfg_hostIn {i : Instr} {s t : State} (h : exec i s = .next t) :
    t.cfg = s.cfg ∧ t.hostIn = s.hostIn := by
  rcases exec_next h with ⟨-, rfl⟩ | ⟨-, ⟨v, rfl, -⟩ | ⟨j, -, -, rfl⟩ | ⟨x, y, p, -, -, rfl⟩ | ⟨x, y, p, -, -, rfl⟩ |
    ⟨_, w, -, -, rfl⟩ | ⟨_, w, -, -, -, rfl⟩ | ⟨_, w, -, -, -, -, rfl⟩ | ⟨_, w, out, -, -, -, -, -, rfl⟩ | ⟨-, rfl⟩ |
    ⟨-, rfl⟩⟩ <;> exact ⟨rfl, rfl⟩

/-! ### Steps -/

/-- Everything a step can do when it answers a next state. -/
theorem step_next {s t : State} (h : step s = .next t) :
    (s.hostIn = [] ∧ t = s) ∨
    (∃ rest, s.hostIn = .reset :: rest ∧ t = State.applyReset { s with hostIn := rest }) ∨
    (∃ w rest i, s.hostIn = .command w :: rest ∧ decode w = .command i ∧ exec i { s with hostIn := rest } = .next t) ∨
    (∃ w rest why, s.hostIn = .command w :: rest ∧ decode w = .illegal why ∧
      execIllegal w { s with hostIn := rest } = .next t) := by
  rcases takeAction_eq s with ⟨he, ht⟩ | ⟨a, rest, he, ht⟩
  · exact .inl ⟨he, by simpa [step, ht] using h.symm⟩
  · cases a with
    | reset => exact .inr (.inl ⟨rest, he, by simpa [step, ht] using h.symm⟩)
    | command w =>
      simp only [step, ht, execWord] at h
      split at h
      · next i hi => exact .inr (.inr (.inl ⟨w, rest, i, he, hi, h⟩))
      · next why hw => exact .inr (.inr (.inr ⟨w, rest, why, he, hw, h⟩))

end Sys2Proof.Machine
end

