-- ==== Sys2Proof/Laws/Run.lean ====
section
/-! SUPPORT. ENCF past its checks, the complete frame of spec/43_frame_sequencer.md R130, and runs of commands. -/

namespace Sys2Proof.Machine

/-- A complete frame has bytes. -/
theorem encodeFrame_of_complete {c : Config} {w : Nat} {fb : Memory} (h : FrameComplete c w fb) :
    ∃ out, encodeFrame c w fb = .ok out := by
  cases he : encodeFrame c w fb with
  | ok out => exact ⟨out, rfl⟩
  | error cell =>
    obtain ⟨before, p, after, hps, hp, -⟩ := packAll_eq_error.mp he
    have hm : p ∈ frameOrder c w := by rw [hps]; simp
    rw [mem_frameOrder] at hm
    have hh := c.panelHeight_ok
    rcases packAt_eq_error.mp hp with ⟨h1, -⟩ | ⟨-, h1, -⟩
    · obtain ⟨q, hq⟩ := h p.x p.y hm.2.2 (by omega)
      simp [h1] at hq
    · obtain ⟨q, hq⟩ := h p.x (p.y + 16) hm.2.2 (by omega)
      rw [Config.half_eq] at h1
      simp [h1] at hq

/-- What ENCF does once its checks have passed (R116). -/
theorem exec_encf_of_accepted {w : BitVec 16} {s : State} (hf : s.flt = false)
    (hc : s.frames.toNat < s.cfg.frameCap) (hw : w.toNat ≤ s.cfg.maxWidth) :
    exec (.encf 32 w) s =
      match encodeFrame s.cfg w.toNat s.fb with
      | .error cell => .fault (.uninitialisedRead cell.x cell.y)
      | .ok out => .next (s.appendFrame out) := by
  have hh : heightAccepted s.cfg 32 = true := by simp [heightAccepted, s.cfg.panelHeight_ok]
  have hw' : widthAccepted s.cfg w = true := by simp [widthAccepted, hw]
  show whenRunning s _ = _
  rw [whenRunning_of_running _ hf, if_neg (Nat.not_le.mpr hc), hh, hw']
  cases encodeFrame s.cfg w.toNat s.fb <;> rfl

/-- Below the cap FRAMES does not wrap (R26). -/
theorem toNat_frames_succ {s : State} (hc : s.frames.toNat < s.cfg.frameCap) :
    (s.frames + 1).toNat = s.frames.toNat + 1 := by
  have := s.cfg.frameCap_ok
  rw [BitVec.toNat_add]
  simp
  omega

/-- Runs one after the other. -/
theorem execAll_append (cs ds : List Instr) (s : State) :
    execAll (cs ++ ds) s =
      match execAll cs s with
      | .next t => execAll ds t
      | .fault f => .fault f
      | .refused r => .refused r := by
  induction cs generalizing s with
  | nil => rfl
  | cons c cs ih =>
    simp only [List.cons_append, execAll]
    cases exec c s <;> simp [ih]

/-- In the fault state a run of commands has no effect (R149). -/
theorem execAll_of_flt (cs : List Instr) {s : State} (h : s.flt = true) : execAll cs s = .next s := by
  induction cs with
  | nil => rfl
  | cons c cs ih => rw [execAll, exec_of_flt _ h]; exact ih

/-- An encoded frame was complete. -/
theorem complete_of_encodeFrame {c : Config} {w : Nat} {fb : Memory} {out : List Byte}
    (h : encodeFrame c w fb = .ok out) : FrameComplete c w fb := by
  have hd := c.bitDepth_ok
  have hp := c.panelHeight_ok
  have hm := packAll_eq_ok.mp h
  have cell : ∀ x y, x < w → y < 16 → ∃ a b, fb.read ⟨x, y⟩ = some a ∧ fb.read ⟨x, y + 16⟩ = some b := by
    intro x y hx hy
    have hmem : packAt c fb ⟨0, y, x⟩ ∈ (frameOrder c w).map (packAt c fb) :=
      List.mem_map_of_mem (mem_frameOrder.mpr ⟨show 0 < c.bitDepth by omega, hy, hx⟩)
    rw [hm, List.mem_map] at hmem
    obtain ⟨byte, -, hbyte⟩ := hmem
    obtain ⟨a, b, ha, hb, -⟩ := packAt_eq_ok.mp hbyte.symm
    exact ⟨a, b, ha, by simpa using hb⟩
  intro x y hx hy
  by_cases hy' : y < 16
  · obtain ⟨a, -, ha, -⟩ := cell x y hx hy'
    exact ⟨a, ha⟩
  · obtain ⟨-, b, -, hb⟩ := cell x (y - 16) hx (by omega)
    rw [Nat.sub_add_cancel (by omega)] at hb
    exact ⟨b, hb⟩

/-- A command that is ready where it stands raises no fault. -/
theorem exec_of_ready {i : Instr} {s : State} (hf : s.flt = false)
    (h : CommandReady s.cfg s.frames.toNat s.fb i) : ∃ t, exec i s = .next t ∧ t.flt = false := by
  cases i with
  | glut v => exact ⟨_, whenRunning_of_running _ hf, by simpa using hf⟩
  | bitx v m => exact ⟨_, whenRunning_of_running _ hf, by simpa using hf⟩
  | pack m a b => exact ⟨_, whenRunning_of_running _ hf, by simpa using hf⟩
  | commit => exact ⟨_, whenRunning_of_running _ hf, by simpa using hf⟩
  | abort => exact h.elim
  | pmask j =>
    have hj : planeInRange s.cfg j = true := by simpa [planeInRange, CommandReady] using h
    refine ⟨s.writeResult (planeMask s.cfg j.toNat), ?_, by simpa using hf⟩
    show whenRunning s _ = _
    rw [whenRunning_of_running _ hf, if_pos hj]
  | fbwr x y p =>
    have hxy : coordInRange s.cfg x y = true := by simpa [coordInRange, CommandReady] using h
    refine ⟨s.writePixel ⟨x.toNat, y.toNat⟩ p, ?_, by simpa using hf⟩
    show whenRunning s _ = _
    rw [whenRunning_of_running _ hf, if_pos hxy]
  | encf hh w =>
    rcases Nat.lt_or_ge s.frames.toNat s.cfg.frameCap with hc | hc
    · obtain ⟨h32, hw, hcomplete⟩ := h hc
      obtain ⟨out, ho⟩ := encodeFrame_of_complete hcomplete
      have hh32 : hh = 32 := by
        apply BitVec.eq_of_toNat_eq
        rw [h32, s.cfg.panelHeight_ok]
        rfl
      subst hh32
      exact ⟨s.appendFrame out, by rw [exec_encf_of_accepted hf hc hw, ho], by simpa using hf⟩
    · refine ⟨s, ?_, hf⟩
      show whenRunning s _ = _
      rw [whenRunning_of_running _ hf, if_pos hc]

/-- Everything a command that raises no fault does. -/
theorem exec_without_fault {i : Instr} {s t : State} (h : exec i s = .next t) (hf : s.flt = false)
    (ht : t.flt = false) :
    (CommandReady s.cfg s.frames.toNat s.fb i ∧ t.fb = fbStep i s.fb ∧
      t.frames.toNat = framesStep s.cfg s.frames.toNat i ∧ t.finfo = s.finfo ∧ t.cfg = s.cfg ∧ t.hostIn = s.hostIn) ∧
    ((∃ hh w out, i = .encf hh w ∧ s.frames.toNat < s.cfg.frameCap ∧ encodeFrame s.cfg w.toNat s.fb = .ok out ∧
        t = s.appendFrame out) ∨
     (∃ hh w, i = .encf hh w ∧ s.cfg.frameCap ≤ s.frames.toNat ∧ t = s) ∨
     (i = .commit ∧ t = s.deliver) ∨
     (encfWidth i = none ∧ i ≠ .commit ∧ t.acc = s.acc ∧ t.frames = s.frames ∧ t.sink = s.sink)) := by
  have noRaise : ∀ f cmd, t ≠ s.raise f cmd := by
    rintro f cmd rfl
    rw [State.flt_raise] at ht
    cases ht
  rcases exec_next h with ⟨hft, -⟩ | ⟨-, ⟨v, rfl, hv⟩ | ⟨j, -, -, hm⟩ | ⟨x, y, p, rfl, hxy, rfl⟩ | ⟨x, y, p, -, -, hm⟩ |
    ⟨hh, w, rfl, hc, rfl⟩ | ⟨_, w, -, -, -, hm⟩ | ⟨_, w, -, -, -, -, hm⟩ | ⟨hh, w, out, rfl, hc, hh32, hw, ho, rfl⟩ |
    ⟨rfl, rfl⟩ | ⟨-, hm⟩⟩
  · rw [hf] at hft; cases hft
  · rcases hv with ⟨v, rfl⟩ | ⟨c, m, rfl⟩ | ⟨j, rfl⟩ | ⟨m, a, b, rfl⟩
    · exact ⟨⟨trivial, rfl, rfl, rfl, rfl, rfl⟩, .inr (.inr (.inr ⟨rfl, by simp, rfl, rfl, rfl⟩))⟩
    · exact ⟨⟨trivial, rfl, rfl, rfl, rfl, rfl⟩, .inr (.inr (.inr ⟨rfl, by simp, rfl, rfl, rfl⟩))⟩
    · have hj : planeInRange s.cfg j = true := by
        by_contra hj
        have hx : exec (.pmask j) s = .next (s.raise .illegalOperand (encode (.pmask j))) := by
          show whenRunning s _ = _
          rw [whenRunning_of_running _ hf, if_neg hj]
        rw [hx, Host.Outcome.next.injEq] at h
        exact noRaise _ _ h.symm
      exact ⟨⟨by simpa [planeInRange, CommandReady] using hj, rfl, rfl, rfl, rfl, rfl⟩,
        .inr (.inr (.inr ⟨rfl, by simp, rfl, rfl, rfl⟩))⟩
    · exact ⟨⟨trivial, rfl, rfl, rfl, rfl, rfl⟩, .inr (.inr (.inr ⟨rfl, by simp, rfl, rfl, rfl⟩))⟩
  · exact absurd hm (noRaise _ _)
  · exact ⟨⟨by simpa [coordInRange, CommandReady] using hxy, rfl, rfl, rfl, rfl, rfl⟩,
      .inr (.inr (.inr ⟨rfl, by simp, rfl, rfl, rfl⟩))⟩
  · exact absurd hm (noRaise _ _)
  · exact ⟨⟨fun hlt => absurd hlt (Nat.not_lt.mpr hc), rfl, (if_neg (Nat.not_lt.mpr hc)).symm, rfl, rfl, rfl⟩,
      .inr (.inl ⟨hh, w, rfl, hc, rfl⟩)⟩
  · exact absurd hm (noRaise _ _)
  · exact absurd hm (noRaise _ _)
  · refine ⟨⟨fun _ => ⟨by simpa [heightAccepted] using hh32, by simpa [widthAccepted] using hw,
      complete_of_encodeFrame ho⟩, rfl, ?_, rfl, rfl, rfl⟩, .inl ⟨hh, w, out, rfl, hc, ho, rfl⟩⟩
    exact (toNat_frames_succ hc).trans (if_pos hc).symm
  · exact ⟨⟨trivial, rfl, rfl, rfl, rfl, rfl⟩, .inr (.inr (.inl ⟨rfl, rfl⟩))⟩
  · exact absurd hm (noRaise _ _)

/-- A run that ends outside the fault state, one command at a time. -/
theorem execAll_cons_without_fault {i : Instr} {cs : List Instr} {s t : State}
    (h : execAll (i :: cs) s = .next t) (ht : t.flt = false) :
    s.flt = false ∧ ∃ u, exec i s = .next u ∧ u.flt = false ∧ execAll cs u = .next t := by
  have live : ∀ {ds : List Instr} {u : State}, execAll ds u = .next t → u.flt = false := by
    intro ds u hu
    by_contra hn
    have hn : u.flt = true := by simpa using hn
    rw [execAll_of_flt _ hn] at hu
    cases hu
    rw [hn] at ht
    cases ht
  refine ⟨live h, ?_⟩
  rw [execAll] at h
  cases hx : exec i s with
  | next u => rw [hx] at h; exact ⟨u, rfl, live h, h⟩
  | fault f => rw [hx] at h; cases h
  | refused r => rw [hx] at h; cases h

end Sys2Proof.Machine
end

