-- ==== Sys2Proof/Tests/Slice0.lean ====
section
/-! SUPPORT. The model's own tests: the words of spec/30_encoding.md R76 and vectors of spec/95_test_vectors.md (each test
names its vector), one step on a small state, under the test instance T_ID of GAMMA with MAX_WIDTH 4 and FRAME_CAP 2; the
well-formedness smoke tests; and, for each statement of Certificates/Slice0/Obligations.lean that has hypotheses, a witness
that meets them. -/

namespace Sys2Proof.Tests

open Sys2Proof Sys2Proof.Machine

/-! ### States -/

/-- T_ID, the identity table of spec/95_test_vectors.md. -/
def tid : GammaTable := {}

/-- The configuration of the tests. -/
def cfg : Config where
  bitDepth := 6
  bitDepth_ok := by decide
  panelHeight := 32
  panelHeight_ok := rfl
  gamma := tid
  frameCap := 2
  frameCap_ok := by decide
  maxWidth := 4
  maxWidth_ok := by decide

/-- The reset state of a block of that configuration. -/
def start : State := { State.reset with cfg := cfg }

/-- Column 0 of the frame buffer, one pixel for each half (FBCOL 0 of R75). -/
def column (top bottom : Pixel) : Memory :=
  (List.range 32).map fun y => (⟨0, y⟩, if y < 16 then top else bottom)

/-- The frame of V-ENCF-9. -/
def framed : State := { start with fb := column ⟨0xA4, 0, 0⟩ ⟨0, 0, 0⟩ }

/-- The frame of V-ENCF-8: cell (0, 16) is not written. -/
def unfinished : State := { start with fb := framed.fb.filter fun e => e.1 ≠ ⟨0, 16⟩ }

/-- A block in the fault state by ABORT. -/
def faulted : State := { start with status := 0x31, finfo := 0x7000000000000000 }

/-- A block with a frame encoded. -/
def running : State := { framed with acc := List.replicate 96 0x10, frames := 1, res := 7, status := 0x02 }

/-- A field of the next state. -/
def field {α : Type} (f : State → α) : Result → Option α
  | .next t => some (f t)
  | .fault _ => none
  | .refused _ => none

theorem framed_complete : FrameComplete cfg 1 framed.fb := by
  intro x y hx hy
  have hx0 : x = 0 := by omega
  have hy32 : y < 32 := hy
  subst hx0
  clear hx hy
  interval_cases y <;> exact ⟨_, rfl⟩

theorem unfinished_incomplete : ¬ FrameComplete cfg 1 unfinished.fb := by
  intro h
  obtain ⟨p, hp⟩ := h 0 16 (by decide) (by decide)
  exact absurd hp (by decide +revert)

/-! ### A run that loads a frame between its ENCFs and goes on past the cap -/

/-- A frame, a pixel of it rewritten, the next frame, a look-up, and an ENCF past the cap. -/
def reload : List Instr := [.encf 32 1, .fbwr 0 0 ⟨1, 2, 3⟩, .encf 32 1, .glut 5, .encf 31 9]

theorem reloaded_complete : FrameComplete cfg 1 (framed.fb.write ⟨0, 0⟩ ⟨1, 2, 3⟩) := by
  intro x y hx hy
  have hx0 : x = 0 := by omega
  have hy32 : y < 32 := hy
  subst hx0
  clear hx hy
  interval_cases y <;> exact ⟨_, rfl⟩

theorem reload_clean : CleanRun cfg reload 0 framed.fb :=
  ⟨fun _ => ⟨rfl, by decide, framed_complete⟩, ⟨by decide, by decide⟩, fun _ => ⟨rfl, by decide, reloaded_complete⟩, trivial,
    fun h => absurd h (by decide), trivial⟩

theorem reload_frames : field (fun t => (t.frames, t.flt)) (execAll reload framed) = some (2, false) := by decide +kernel

theorem reload_runs : ∃ t, execAll reload framed = .next t ∧ t.flt = false := by
  have h := reload_frames
  cases he : execAll reload framed with
  | next t => rw [he] at h; exact ⟨t, rfl, (Prod.mk.inj (Option.some.inj h)).2⟩
  | fault f => rw [he] at h; cases h
  | refused r => rw [he] at h; cases h

/-! ### Decoding: words written out from the formats of R62 to R68 -/

/-- R62: OP 0001, V = 11111111. -/
theorem test_decode_glut : decode (0x1#4 ++ 0#52 ++ 0b11111111#8) = .command (.glut 255) := by decide
/-- R63: OP 0010, M = 00100000 in bits 15 to 8, C = 10100101. -/
theorem test_decode_bitx : decode (0x2#4 ++ 0#44 ++ 0b00100000#8 ++ 0b10100101#8) = .command (.bitx 0xA5 0x20) := by decide
/-- R64: OP 0011, J = 101. -/
theorem test_decode_pmask : decode (0x3#4 ++ 0#57 ++ 0b101#3) = .command (.pmask 5) := by decide
/-- R65: six channels of different values, M in bits 55 to 48. -/
theorem test_decode_pack : decode (0x4#4 ++ 0#4 ++ 0x80#8 ++ 1#8 ++ 2#8 ++ 3#8 ++ 4#8 ++ 5#8 ++ 6#8) =
    .command (.pack 0x80 ⟨1, 2, 3⟩ ⟨4, 5, 6⟩) := by decide
/-- R67: H in bits 31 to 16, W in bits 15 to 0. -/
theorem test_decode_encf : decode (0x5#4 ++ 0#28 ++ 32#16 ++ 0x8001#16) = .command (.encf 32 0x8001) := by decide
/-- R68. -/
theorem test_decode_commit : decode (0x6#4 ++ 0#60) = .command .commit := by decide
/-- R68. -/
theorem test_decode_abort : decode (0x7#4 ++ 0#60) = .command .abort := by decide
/-- R66: X in bits 55 to 40, Y in bits 39 to 32, R, G, B below the reserved byte. -/
theorem test_decode_fbwr : decode (0x8#4 ++ 0#4 ++ 0x1234#16 ++ 31#8 ++ 0#8 ++ 1#8 ++ 2#8 ++ 3#8) =
    .command (.fbwr 0x1234 31 ⟨1, 2, 3⟩) := by decide

/-- V-GLUT-5, V-PMASK-8, V-PACK-21, V-FBWR-5, V-ENCF-10, V-COMMIT-4: one reserved bit set. -/
theorem test_reserved_bits_illegal :
    [0x1000000000000100, 0x3000000000000008, 0x4480FFFFFFFFFFFF, 0x8000000001000000, 0x5000000100200001,
      0x6000000000000001].all (fun w => decode w = .illegal .reservedBit) = true := by decide
/-- V-DEC-1 to V-DEC-3. -/
theorem test_undefined_opcodes_illegal :
    [0x0000000000000000, 0x9000000000000000, 0xF000000000000000].all
      (fun w => decode w = .illegal .undefinedOpcode) = true := by decide

/-- The encoder gives the words of R76. -/
theorem test_encode_r76 :
    encode (.glut 255) = 0x10000000000000FF ∧ encode (.bitx 0xA5 0x20) = 0x20000000000020A5 ∧
    encode (.pmask 5) = 0x3000000000000005 ∧
    encode (.pack 0x04 ⟨0, 0, 0⟩ ⟨255, 255, 255⟩) = 0x4004000000FFFFFF ∧
    encode (.fbwr 1 31 ⟨255, 255, 255⟩) = 0x8000011F00FFFFFF ∧ encode (.encf 32 2) = 0x5000000000200002 ∧
    encode .commit = 0x6000000000000000 ∧ encode .abort = 0x7000000000000000 := by decide

/-- R47: byte 0 of a word carried as bytes is its lowest. -/
theorem test_word_bytes : wordBytes 0x8000011F00ABCDEF = [0xEF, 0xCD, 0xAB, 0x00, 0x1F, 0x01, 0x00, 0x80] := by decide

/-! ### Well-formedness: an ill-formed line for each check, refused -/

theorem test_wf_glut : AsmLine.wellFormed cfg (.glut 255) = true ∧ AsmLine.wellFormed cfg (.glut 256) = false := by decide
theorem test_wf_bitx : AsmLine.wellFormed cfg (.bitx 256 0) = false ∧ AsmLine.wellFormed cfg (.bitx 0 256) = false := by
  decide
theorem test_wf_pmask : AsmLine.wellFormed cfg (.pmask 7) = true ∧ AsmLine.wellFormed cfg (.pmask 8) = false := by decide
theorem test_wf_pack : AsmLine.wellFormed cfg (.pack 256 ⟨0, 0, 0⟩ ⟨0, 0, 0⟩) = false ∧
    AsmLine.wellFormed cfg (.pack 0 ⟨256, 0, 0⟩ ⟨0, 0, 0⟩) = false ∧
    AsmLine.wellFormed cfg (.pack 0 ⟨0, 0, 0⟩ ⟨0, 256, 0⟩) = false := by decide
theorem test_wf_fbwr : AsmLine.wellFormed cfg (.fbwr 65536 0 ⟨0, 0, 0⟩) = false ∧
    AsmLine.wellFormed cfg (.fbwr 0 256 ⟨0, 0, 0⟩) = false ∧ AsmLine.wellFormed cfg (.fbwr 0 0 ⟨0, 0, 256⟩) = false ∧
    AsmLine.wellFormed cfg (.fbwr 65535 255 ⟨0, 0, 0⟩) = true := by decide
theorem test_wf_encf : AsmLine.wellFormed cfg (.encf 65536 0) = false ∧ AsmLine.wellFormed cfg (.encf 0 65536) = false ∧
    AsmLine.wellFormed cfg (.encframe 65536) = false := by decide
theorem test_wf_cmd : AsmLine.wellFormed cfg (.cmd (2 ^ 64)) = false ∧ AsmLine.wellFormed cfg (.cmd (2 ^ 64 - 1)) = true := by
  decide
theorem test_wf_packp : AsmLine.wellFormed cfg (.packp 6 ⟨0, 0, 0⟩ ⟨0, 0, 0⟩) = false ∧
    AsmLine.wellFormed cfg (.packp 5 ⟨0, 0, 0⟩ ⟨0, 0, 0⟩) = true ∧
    AsmLine.wellFormed cfg (.packp 5 ⟨256, 0, 0⟩ ⟨0, 0, 0⟩) = false ∧
    AsmLine.wellFormed cfg (.packp 5 ⟨0, 0, 0⟩ ⟨0, 0, 256⟩) = false := by decide
theorem test_wf_fbfill : AsmLine.wellFormed cfg (.fbfill 0 ⟨0, 0, 0⟩) = false ∧
    AsmLine.wellFormed cfg (.fbfill 5 ⟨0, 0, 0⟩) = false ∧ AsmLine.wellFormed cfg (.fbfill 4 ⟨0, 0, 0⟩) = true ∧
    AsmLine.wellFormed cfg (.fbfill 4 ⟨256, 0, 0⟩) = false := by decide
theorem test_wf_fbcol : AsmLine.wellFormed cfg (.fbcol 4 ⟨0, 0, 0⟩ ⟨0, 0, 0⟩) = false ∧
    AsmLine.wellFormed cfg (.fbcol 3 ⟨0, 0, 0⟩ ⟨0, 0, 0⟩) = true ∧
    AsmLine.wellFormed cfg (.fbcol 3 ⟨0, 256, 0⟩ ⟨0, 0, 0⟩) = false ∧
    AsmLine.wellFormed cfg (.fbcol 3 ⟨0, 0, 0⟩ ⟨0, 256, 0⟩) = false := by decide
/-- A command holds its operands at the widths of their fields. -/
theorem test_wf_instr : (Instr.fbwr 0xFFFF 0xFF ⟨0xFF, 0xFF, 0xFF⟩).wellFormed = true := by decide
/-- The check itself refuses an operand one above the field. -/
theorem test_fits : fits 3 7 = true ∧ fits 3 8 = false := by decide

/-! ### The assembler's text (R74, R75) -/

theorem test_parse_pack : parseLine "  PACK 0x80, (255, 0, 255), (0, 255, 0)  ; V-PACK-7".toList =
    .line (.pack 0x80 ⟨255, 0, 255⟩ ⟨0, 255, 0⟩) := by decide
theorem test_parse_fbwr : parseLine "FBWR 1, 31, (255, 255, 255)".toList = .line (.fbwr 1 31 ⟨255, 255, 255⟩) := by decide
theorem test_parse_cmd : parseLine ".cmd 0x1000000000000100".toList = .line (.cmd 0x1000000000000100) := by decide
theorem test_parse_commit : parseLine "COMMIT".toList = .line .commit := by decide
theorem test_parse_comment : parseLine "   ; words".toList = .blank := by decide
theorem test_parse_refuses : parseLine "GLUT 1 2".toList = .notAssembly ∧ parseLine "GLUT 0x".toList = .notAssembly ∧
    parseLine "COMMIT 1".toList = .notAssembly ∧ parseLine "NOP".toList = .notAssembly := by decide
/-- R76: `FBWR 1, 31, (255, 255, 255)` is 0x8000011F00FFFFFF; the last word of `FBFILL 2` in P1 is that word too. -/
theorem test_assemble_fbfill : (assemble cfg (.fbfill 2 ⟨255, 255, 255⟩)).map (fun ws => (ws.length, ws[1]?, ws[63]?)) =
    some (64, some 0x8000010000FFFFFF, some 0x8000011F00FFFFFF) := by decide

/-! ### Configuration -/

/-- R141: D = 0 and D = 8 are refused, and an empty table. -/
theorem test_elaborate_refuses : elaborate ⟨0, 32, [], 2, 4⟩ = .error .bitDepth ∧
    elaborate ⟨8, 32, [], 2, 4⟩ = .error .bitDepth ∧ elaborate ⟨6, 31, [], 2, 4⟩ = .error .panelHeight ∧
    elaborate ⟨6, 32, [], 2, 0⟩ = .error .maxWidth ∧ elaborate ⟨6, 32, [], 2, 65536⟩ = .error .maxWidth ∧
    elaborate ⟨6, 32, [], 2 ^ 32, 4⟩ = .error .frameCap ∧ elaborate ⟨6, 32, [], 2, 4⟩ = .error .gamma := by decide
/-- E1, E11: the masks of depth 6 and 7. -/
theorem test_masks : masks 6 = .ok [128, 64, 32, 16, 8, 4] ∧
    masks 7 = .ok [0x80, 0x40, 0x20, 0x10, 0x08, 0x04, 0x02] ∧ masks 8 = .error .bitDepth := by decide

/-! ### One step of each command -/

/-- V-GLUT-3. -/
theorem test_glut : field (fun t => (t.res, t.status)) (exec (.glut 0x5A) start) = some (0x5A, 0x02) := by decide
/-- V-GLUT-2, for every admissible GAMMA: the block's own. -/
theorem test_glut_max : field State.res (exec (.glut 255) State.reset) = some 255 := by
  show some (correct Config.block 255) = some 255
  exact congrArg some Config.block.gamma.at_max
/-- V-BITX-6: a mask of several bits. -/
theorem test_bitx_multi : field (fun t => (t.res, t.status)) (exec (.bitx 0x03 0x06) start) = some (0x01, 0x02) := by decide
/-- V-BITX-10. -/
theorem test_bitx_none : field State.res (exec (.bitx 0x02 0x04) start) = some 0x00 := by decide
/-- V-PMASK-5. -/
theorem test_pmask : field (fun t => (t.res, t.status)) (exec (.pmask 5) start) = some (0x04, 0x02) := by decide
/-- V-PMASK-6. -/
theorem test_pmask_past_depth : field (fun t => (t.status, t.finfo)) (exec (.pmask 6) start) =
    some (0x51, 0x3000000000000006) := by decide
/-- V-PACK-16. -/
theorem test_pack : field State.res (exec (.pack 0x80 ⟨0x80, 0x7F, 0xFF⟩ ⟨0x00, 0x80, 0x81⟩) start) = some 0x9A := by decide
/-- V-PACK-18. -/
theorem test_pack_multi : field State.res (exec (.pack 0x03 ⟨0x01, 0x02, 0x04⟩ ⟨0, 0, 0⟩) start) = some 0x50 := by decide
/-- V-FBWR-2. -/
theorem test_fbwr : field (fun t => (t.fb, t.status)) (exec (.fbwr 1 31 ⟨255, 255, 255⟩) start) =
    some ([(⟨1, 31⟩, ⟨255, 255, 255⟩)], 0x00) := by decide
/-- V-FBWR-3 and V-FBWR-4. -/
theorem test_fbwr_outside : field State.status (exec (.fbwr 0 32 ⟨0, 0, 0⟩) start) = some 0x51 ∧
    field State.status (exec (.fbwr 4 0 ⟨0, 0, 0⟩) start) = some 0x51 := by decide
/-- V-ENCF-9: planes 0, 2 and 5 of 0xA4. -/
theorem test_encode_frame : (encodeFrame cfg 1 framed.fb).toOption =
    some (List.replicate 16 0x10 ++ List.replicate 16 0 ++ List.replicate 16 0x10 ++ List.replicate 32 0 ++
      List.replicate 16 0x10) := by decide +kernel
/-- The bytes of V-ENCF-9. -/
theorem framed_encodes : ∃ out, encodeFrame cfg 1 framed.fb = .ok out ∧ out.length = 96 := by
  have h := test_encode_frame
  cases he : encodeFrame cfg 1 framed.fb with
  | error cell => rw [he] at h; cases h
  | ok out => rw [he] at h; exact ⟨out, rfl, by cases h; rfl⟩
/-- What ENCF 32, 1 does to the frame of V-ENCF-9. -/
theorem framed_encf {out : List Byte} (h : encodeFrame cfg 1 framed.fb = .ok out) :
    exec (.encf 32 1) framed = .next (framed.appendFrame out) := by
  show (match encodeFrame cfg 1 framed.fb with
    | .error cell => Host.Outcome.fault (Fault.uninitialisedRead cell.x cell.y)
    | .ok out => .next (framed.appendFrame out)) = _
  rw [h]
/-- V-ENCF-7: a frame of width 0 counts. -/
theorem test_encf_zero : field (fun t => (t.acc.length, t.frames)) (exec (.encf 32 0) running) = some (96, 2) := by decide
/-- V-ENCF-8: the first unwritten cell met is (0, 16). -/
theorem test_encf_unwritten : exec (.encf 32 1) unfinished = .fault (.uninitialisedRead 0 16) := rfl
/-- V-COMMIT-2. -/
theorem test_commit : field (fun t => (t.sink, t.acc, t.frames)) (exec .commit running) =
    some ([List.replicate 96 0x10], [], 0) := by decide
/-- V-ABORT-1. -/
theorem test_abort : field (fun t => (t.status, t.finfo, t.acc, t.frames, t.sink)) (exec .abort running) =
    some (0x31, 0x7000000000000000, [], 1, []) := by decide
/-- V-ENCF-2 and V-ENCF-6: the height is checked before the width. -/
theorem test_encf_height : field (fun t => (t.status, t.finfo, t.acc)) (exec (.encf 31 5) running) =
    some (0x21, 0x50000000001F0005, []) := by decide
/-- V-ENCF-4: at the cap a bad height does nothing. -/
theorem test_encf_cap : field State.status (exec (.encf 31 1) { start with frames := 2 }) = some 0x00 := by decide

/-! ### The step -/

/-- V-DEC-1. -/
theorem test_step_illegal : field (fun t => (t.status, t.finfo, t.hostIn)) (step (start.issueNext (.command 0))) =
    some (0x41, 0, []) := by decide
/-- V-FLT-1 and V-FLT-2: a legal and an illegal word in the fault state. -/
theorem test_step_in_fault_state : step (faulted.issueNext (.command 0x10000000000000FF)) = .next faulted ∧
    step (faulted.issueNext (.command 0)) = .next faulted := ⟨rfl, rfl⟩
/-- V-FLT-3. -/
theorem test_step_reset : field (fun t => (t.status, t.finfo, t.sink))
    (step { faulted with sink := [[1]], hostIn := [.reset] }) = some (0x00, 0, [[1]]) := by decide
/-- The first command after reset, of the block's own configuration: a decoded row runs, whatever the open parameters. -/
theorem test_first_command_encf : ∃ t, step (State.reset.withFetchWord 64 0x5000000000000000) = .next t := by
  show ∃ t, execEncf 0 0 State.reset = .next t
  rw [execEncf, whenRunning_of_running _ (by decide)]
  split
  · exact ⟨_, rfl⟩
  · exact ⟨_, rfl⟩

/-! ### Witnesses for the hypotheses of the statements -/

theorem witness_EncodeDecodeRoundTrip : decode 0x10000000000000FF = .command (.glut 255) := by decide
theorem witness_DecodeIsTheUniqueRow : decode 0x4004000000FFFFFF = .command (.pack 4 ⟨0, 0, 0⟩ ⟨255, 255, 255⟩) ∧
    ∀ r ∈ opcodeMap, r.selectedBy 0x9000000000000000 = false := by decide
theorem witness_IllegalWordsRaiseIllegalCommand : (start.issueNext (.command 0xF)).hostIn = .command 0xF :: [] ∧
    (start.issueNext (.command 0xF)).flt = false ∧ decode 0xF = .illegal .undefinedOpcode := by decide
theorem witness_CommandBytesRoundTrip : (7 : Nat) < 8 := by decide
theorem witness_PseudoInstructionsExpand : (5 < cfg.bitDepth ∧ cfg.bitDepth ≤ 6) ∧
    (1 ≤ 4 ∧ 4 ≤ cfg.maxWidth ∧ AsmPixel.wellFormed ⟨255, 0, 255⟩ = true) ∧ (cfg.maxWidth < 5) ∧
    (3 < cfg.maxWidth ∧ cfg.maxWidth ≤ 4) := by decide
theorem witness_AssemblerFieldChecks : (255 < 256 ∧ ¬ 256 < 256) ∧ (7 < 8 ∧ ¬ 8 < 8) ∧ (65535 < 65536 ∧ ¬ 65536 < 65536) ∧
    (2 ^ 64 - 1 < 2 ^ 64 ∧ ¬ 2 ^ 64 < 2 ^ 64) ∧ (0 < 256 ∧ (255 < 256 ∧ 1 < 256 ∧ 2 < 256) ∧ 3 < 256 ∧ 4 < 256 ∧ 255 < 256) ∧
    ¬ (0 < 256 ∧ (255 < 256 ∧ 1 < 256 ∧ 2 < 256) ∧ 3 < 256 ∧ 4 < 256 ∧ 256 < 256) := by
  decide
theorem witness_IllFormedConfigurationRefused :
    (elaborate ⟨6, 32, tid.entries, 2 ^ 32 - 1, 65535⟩).toOption.isSome = true ∧
    ¬ 1 ≤ (⟨0, 32, tid.entries, 0, 1⟩ : RawConfig).bitDepth := by decide +kernel
theorem witness_GammaLaws : (0 : Byte) ≤ 255 := by decide
theorem witness_PlaneMaskSet : (1 ≤ 7 ∧ 7 ≤ 7 ∧ 6 < 7) ∧ (0 = 0 ∨ 7 < 0) ∧ (8 = 0 ∨ 7 < 8) := by decide
theorem witness_PlaneTestIsOneBit : 5 < cfg.bitDepth := by decide
theorem witness_ConfigurationNeverChanges : ∃ t, step (start.issueNext (.command 0x6000000000000000)) = .next t :=
  ⟨_, rfl⟩
theorem witness_ResetValues : (running.issueNext .reset).hostIn = .reset :: [] := rfl

/-- A run with a frame encoded, two cells of FB listed, an artifact delivered, and a COMMIT issued. -/
def delivered : State :=
  { running with
    fb := [(⟨3, 0⟩, ⟨1, 2, 3⟩), (⟨0, 31⟩, ⟨4, 5, 6⟩)]
    sink := [[]]
    hostIn := [.command 0x6000000000000000] }

theorem delivered_inv : Inv delivered where
  registers := {
    reserved_zero := by decide
    cause_zero := by decide
    cause_legal := by decide
    rv_clear := by decide
    finfo_zero := by decide
    acc_empty := by decide
    frames_le := by decide
    acc_of_no_frame := by decide }
  memories := {
    fb_wf := by decide
    fb_in_range := by decide
    acc_layout := fun b hb => by rw [List.eq_of_mem_replicate hb]; decide
    acc_length := by decide
    sink_layout := by unfold LayoutBytes; decide
    sink_length := by decide }

theorem witness_StepKeepsInv : Inv delivered ∧ ∃ t, step delivered = .next t := ⟨delivered_inv, _, rfl⟩
theorem witness_StepKeepsFaultExplained : FaultExplained faulted ∧ faulted.flt = true ∧ ∃ t, step faulted = .next t :=
  ⟨fun _ => .inr (.inl (by decide)), by decide, _, rfl⟩
theorem witness_StepRunsDecodedCommand :
    ((start.issueNext (.command 0x3000000000000005)).hostIn = .command 0x3000000000000005 :: [] ∧
      decode 0x3000000000000005 = .command (.pmask 5)) ∧
    decodeTableWord 64 0x3000000000000005 = some (.pmask 5) := by decide
theorem witness_IdleBlockHoldsItsState : running.hostIn = [] := rfl
theorem witness_FaultStateIgnoresCommands :
    ((faulted.issueNext (.command 0)).hostIn = .command 0 :: [] ∧ (faulted.issueNext (.command 0)).flt = true) ∧
    faulted.flt = true ∧
    ((faulted.issueNext .reset).flt = true ∧ (faulted.issueNext .reset).hostIn = .reset :: [] ∧
      field State.flt (step (faulted.issueNext .reset)) = some false) := by decide
theorem witness_OnlyAnIncompleteFrameStops : exec (.encf 32 1) unfinished = .fault (.uninitialisedRead 0 16) ∧
    step (unfinished.issueNext (.command 0x5000000000200001)) = .fault (.uninitialisedRead 0 16) := ⟨rfl, rfl⟩
theorem witness_GlutResult : faulted.flt = true ∧ start.flt = false := by decide
theorem witness_GlutIsRepeatable : start.cfg = running.cfg ∧ start.flt = false ∧ running.flt = false :=
  ⟨rfl, by decide, by decide⟩
theorem witness_BitxResult : faulted.flt = true ∧ start.flt = false ∧
    (∃ k, k < 8 ∧ (0xA5 : Byte).getLsbD k = true ∧ (0x20 : Byte).getLsbD k = true) ∧
    (∀ k, k < 8 → (0xA5 : Byte).getLsbD k = true → (0x40 : Byte).getLsbD k = false) := by decide
theorem witness_PmaskResult : faulted.flt = true ∧ (start.flt = false ∧ (5 : BitVec 3).toNat < start.cfg.bitDepth) ∧
    (start.flt = false ∧ start.cfg.bitDepth ≤ (6 : BitVec 3).toNat) := by decide
theorem witness_PackResult : faulted.flt = true ∧ running.flt = false := by decide
theorem witness_OutputBits5And2AreZero : ∃ out, encodeFrame cfg 1 framed.fb = .ok out ∧ ∃ b, b ∈ out := by
  obtain ⟨out, ho, hl⟩ := framed_encodes
  exact ⟨out, ho, List.exists_mem_of_length_pos (by omega)⟩
theorem witness_FaultEntryWrites : running.flt = false ∧
    field State.flt (step (running.issueNext (.command 0x7000000000000000))) = some true := by decide
theorem witness_PackCornerBytes : (4 : Byte) ∈ maskTable cfg ∧ (1 : Byte) ≠ 0 := by decide
theorem witness_FbwrResult : faulted.flt = true ∧
    (start.flt = false ∧ (3 : BitVec 16).toNat < start.cfg.maxWidth ∧ (31 : Byte).toNat < 32) ∧
    (start.flt = false ∧ start.cfg.maxWidth ≤ (4 : BitVec 16).toNat) ∧ (start.flt = false ∧ 32 ≤ (32 : Byte).toNat) := by
  decide
theorem witness_CellHoldsItsLastPixel :
    field (fun t => t.fb.read ⟨0, 0⟩) (step (framed.issueNext (.command 0x8000000000010203))) = some (some ⟨1, 2, 3⟩) ∧
    field (fun t => t.fb.read ⟨0, 0⟩) (step (framed.issueNext .reset)) = some none ∧
    framed.fb.read ⟨0, 0⟩ = some ⟨0xA4, 0, 0⟩ := by decide +kernel
theorem witness_EncfEncodesACompleteFrame : running.flt = false ∧ running.frames.toNat < running.cfg.frameCap ∧
    (1 : BitVec 16).toNat ≤ running.cfg.maxWidth ∧ FrameComplete running.cfg (1 : BitVec 16).toNat running.fb :=
  ⟨by decide, by decide, by decide, framed_complete⟩
theorem witness_FrameBytesInHardwareOrder : (∃ out, encodeFrame cfg 1 framed.fb = .ok out ∧ 95 < out.length) ∧
    5 < cfg.bitDepth ∧ 15 < 16 ∧ 0 < 1 := by
  obtain ⟨out, ho, hl⟩ := framed_encodes
  exact ⟨⟨out, ho, by omega⟩, by decide⟩
theorem witness_FrameLengthLaw : (∃ out, encodeFrame cfg 1 framed.fb = .ok out) ∧ framed.flt = false ∧ framed.acc = [] ∧
    Instr.commit ∉ reload ∧ CleanRun framed.cfg reload framed.frames.toNat framed.fb ∧
    [1, 1] = (reload.filterMap encfWidth).take (framed.cfg.frameCap - framed.frames.toNat) ∧ (∀ v ∈ [1, 1], v = 1) ∧
    framed.cfg.bitDepth = 6 := by
  obtain ⟨out, ho, -⟩ := framed_encodes
  exact ⟨⟨out, ho⟩, by decide, rfl, by decide, reload_clean, by decide, by decide, rfl⟩
theorem witness_EncfPastTheCapHasNoEffect :
    ({ running with frames := 2 } : State).cfg.frameCap ≤ ({ running with frames := 2 } : State).frames.toNat := by decide
theorem witness_EncfHeightCheck : running.flt = false ∧ running.frames.toNat < running.cfg.frameCap ∧
    (31 : BitVec 16) ≠ 32 ∧ (33 : BitVec 16) ≠ 32 := by decide
theorem witness_EncfWidthCheck : running.flt = false ∧ running.frames.toNat < running.cfg.frameCap ∧
    running.cfg.maxWidth < (5 : BitVec 16).toNat := by decide
theorem witness_EncfStopsAtFirstUnwrittenCell : unfinished.flt = false ∧
    unfinished.frames.toNat < unfinished.cfg.frameCap ∧ (1 : BitVec 16).toNat ≤ unfinished.cfg.maxWidth ∧
    ¬ FrameComplete unfinished.cfg (1 : BitVec 16).toNat unfinished.fb :=
  ⟨by decide, by decide, by decide, unfinished_incomplete⟩
theorem witness_EncfOfWidthZero : running.flt = false ∧ running.frames.toNat < running.cfg.frameCap := by decide
/-- 0xA4 and 0xA7 are alike in bits 7 to 2. -/
theorem witness_LowBitsNeverReachTheFrame : cfg.bitDepth = 6 ∧
    ∀ x y, x < 1 → y < 32 →
      ∃ p q, framed.fb.read ⟨x, y⟩ = some p ∧ (column ⟨0xA7, 0, 3⟩ ⟨1, 2, 3⟩).read ⟨x, y⟩ = some q ∧
        (correct cfg p.r).extractLsb' 2 6 = (correct cfg q.r).extractLsb' 2 6 ∧
        (correct cfg p.g).extractLsb' 2 6 = (correct cfg q.g).extractLsb' 2 6 ∧
        (correct cfg p.b).extractLsb' 2 6 = (correct cfg q.b).extractLsb' 2 6 := by
  refine ⟨rfl, fun x y hx hy => ?_⟩
  have hx0 : x = 0 := by omega
  subst hx0
  clear hx
  interval_cases y <;> exact ⟨_, _, rfl, rfl, by decide, by decide, by decide⟩
theorem witness_CommitDelivers : faulted.flt = true ∧ running.flt = false := by decide
theorem witness_AbortRaisesSourceReadError : faulted.flt = true ∧ running.flt = false := by decide
theorem witness_SinkGrowsOnlyByCommit :
    field State.sink (step (running.issueNext (.command 0x6000000000000000))) = some [List.replicate 96 0x10] ∧
    running.sink = [] := by decide +kernel
theorem witness_AccIsAppendOnly :
    (∃ out, exec (.encf 32 1) framed = .next (framed.appendFrame out) ∧ framed.acc ++ out ≠ framed.acc) ∧
    field (fun t => t.acc.length) (step (running.issueNext (.command 0x6000000000000000))) = some 0 ∧
    field (fun t => t.acc.length) (step (running.issueNext (.command 0x7000000000000000))) = some 0 ∧
    field (fun t => t.acc.length) (step (running.issueNext .reset)) = some 0 ∧ running.acc.length = 96 := by
  refine ⟨?_, by decide⟩
  obtain ⟨out, ho, hl⟩ := framed_encodes
  refine ⟨out, framed_encf ho, fun h => ?_⟩
  have h96 := congrArg List.length h
  simp only [List.length_append] at h96
  omega
theorem witness_FramesCountsEncodedFrames :
    field State.frames (step (running.issueNext (.command 0x5000000000200000))) = some 2 ∧
    field State.frames (step (running.issueNext (.command 0x6000000000000000))) = some 0 ∧
    field State.frames (step (running.issueNext .reset)) = some 0 ∧ running.frames = 1 := by decide
theorem witness_StatusFieldsWrittenAsStated :
    field State.status (step (start.issueNext (.command 0x10000000000000FF))) = some 0x02 ∧
    field State.status (step (running.issueNext (.command 0x7000000000000000))) = some 0x31 := by decide
theorem witness_ResWrittenOnlyByResults :
    field State.res (step (running.issueNext (.command 0x10000000000000FF))) = some 0xFF ∧
    field State.res (step (running.issueNext .reset)) = some 0 ∧ running.res = 7 ∧ running.rv = true ∧ start.rv = false := by
  decide
theorem witness_FinfoHoldsTheFaultingWord :
    field (fun t => (t.finfo, t.flt)) (step (running.issueNext (.command 0x3000000000000007))) =
      some (0x3000000000000007, true) ∧
    field State.finfo (step (faulted.issueNext .reset)) = some 0 ∧ running.flt = false ∧ running.finfo = 0 := by decide
theorem witness_CleanRunIffNoFault : framed.flt = false ∧ CleanRun framed.cfg reload framed.frames.toNat framed.fb ∧
    ∃ t, execAll reload framed = .next t ∧ t.flt = false := ⟨by decide, reload_clean, reload_runs⟩
/-- The run passes the cap: three frames issued under a cap of 2; and a run of ENCFs alone. -/
theorem witness_FrameCapLaw : framed.flt = false ∧ framed.frames = 0 ∧ Instr.commit ∉ reload ∧
    CleanRun framed.cfg reload 0 framed.fb ∧ (∃ t, execAll reload framed = .next t ∧ t.flt = false) ∧
    framed.cfg.frameCap ≤ (issuedFrames reload framed.fb).length ∧
    (∀ i ∈ [Instr.encf 32 0], encfWidth i ≠ none) ∧ execAll [.encf 32 0] framed = .next (framed.appendFrame []) :=
  ⟨by decide, rfl, by decide, reload_clean, reload_runs, by decide, by decide, rfl⟩
theorem witness_ArtifactHoldsTheFramesInOrder : framed.flt = false ∧ framed.frames = 0 ∧ framed.acc = [] ∧
    Instr.commit ∉ reload ∧ CleanRun framed.cfg reload 0 framed.fb ∧
    (∀ f ∈ (issuedFrames reload framed.fb).take framed.cfg.frameCap, f.1 = 1) ∧
    (∃ outs : List (List Byte), ((issuedFrames reload framed.fb).take framed.cfg.frameCap).map
        (fun f => encodeFrame framed.cfg f.1 f.2) = outs.map .ok ∧ ∃ out, outs[1]? = some out) ∧
    95 < framed.cfg.bitDepth * 16 * 1 ∧ framed.cfg.bitDepth = 6 := by
  refine ⟨by decide, rfl, rfl, by decide, reload_clean, by decide, ?_, by decide, rfl⟩
  obtain ⟨first, h1⟩ := encodeFrame_of_complete framed_complete
  obtain ⟨second, h2⟩ := encodeFrame_of_complete reloaded_complete
  refine ⟨[first, second], ?_, second, rfl⟩
  show [encodeFrame cfg 1 framed.fb, encodeFrame cfg 1 (framed.fb.write ⟨0, 0⟩ ⟨1, 2, 3⟩)] = _
  rw [h1, h2]
  rfl
theorem witness_DimensionViolationLaw : ∃ u, execAll [.encf 32 0] framed = .next u ∧ Instr.commit ∉ [Instr.encf 32 0] ∧
    u.flt = false ∧ u.frames.toNat < u.cfg.frameCap ∧ (31 : BitVec 16) ≠ 32 :=
  ⟨framed.appendFrame [], rfl, by decide, by decide, by decide, by decide⟩
/-- The run passes the cap: three frames issued under a cap of 2. -/
theorem witness_AccLengthIsTheSumOfWidths : (∃ t, execAll reload framed = .next t ∧ t.flt = false) ∧
    field (fun t => t.cfg.bitDepth) (execAll reload framed) = some 6 ∧ Instr.commit ∉ reload ∧ framed.acc = [] ∧
    framed.frames = 0 ∧ framed.cfg.frameCap < (reload.filterMap encfWidth).length :=
  ⟨reload_runs, by decide +kernel, by decide, rfl, rfl, by decide⟩

end Sys2Proof.Tests
end

section
/-! PROOFS. A word that decodes to a command is the command's one word (spec/30_encoding.md R70 to R72): a field put back at
its place gives the bits of the word under the field's mask, and the mask of a row and the masks of its fields make up a
whole word. -/

namespace Sys2Proof

/-- A field put back at its place is the word under the field's mask. -/
theorem place_extractLsb' (w : CmdWord) (lo width : Nat) :
    place lo (w.extractLsb' lo width) = w &&& place lo (BitVec.allOnes width) := by
  ext k hk
  by_cases hlo : k < lo
  · simp [place, hlo]
  · have hsum : lo + (k - lo) = k := by omega
    have hk' : k - lo < 64 := by omega
    simp [place, hlo, hsum, hk', ← BitVec.getLsbD_eq_getElem, Bool.and_comm, hk]

/-- A pixel put back at its place is the word under the pixel's mask. -/
theorem placePixel_pixelField (w : CmdWord) (lo : Nat) :
    placePixel lo (pixelField w lo) =
      w &&& placePixel lo ⟨BitVec.allOnes 8, BitVec.allOnes 8, BitVec.allOnes 8⟩ := by
  simp only [placePixel, pixelField, place_extractLsb', BitVec.and_or_distrib_left]

/-- A word that decodes to a command is the command's word. -/
theorem encode_of_decode {w : CmdWord} {i : Instr} (h : decode w = .command i) : encode i = w := by
  have hsel := selectedBy_of_decode h
  have hrow : w &&& i.row.mask = i.row.pattern := beq_iff_eq.mp hsel
  have whole : ∀ m : CmdWord, m = BitVec.allOnes 64 → w &&& m = w := fun m hm => by
    rw [hm, BitVec.and_allOnes]
  cases i
  case' glut => cases (decode_of_rowGlut hsel).symm.trans h
  case' bitx => cases (decode_of_rowBitx hsel).symm.trans h
  case' pmask => cases (decode_of_rowPmask hsel).symm.trans h
  case' pack => cases (decode_of_rowPack hsel).symm.trans h
  case' encf => cases (decode_of_rowEncf hsel).symm.trans h
  case' fbwr => cases (decode_of_rowFbwr hsel).symm.trans h
  all_goals
    simp only [Instr.row] at hrow
    simp only [encode, ← hrow, place_extractLsb', placePixel_pixelField, ← BitVec.and_or_distrib_left]
    exact whole _ (by decide)

end Sys2Proof
end

section
/-! PROOFS. What one step does to the state, as one of a few effects: the inversion lemmas of Sys2Proof/Laws/Step.lean with the
five fault entries of commands and the one of illegal words put together, and FINFO's word named as the issued word. -/

namespace Sys2Proof.Machine

/-- GLUT, BITX, PMASK and PACK, the commands that write RES (spec/10_state.md R24). -/
def ProducesResult (i : Instr) : Prop :=
  (∃ v, i = .glut v) ∨ (∃ c m, i = .bitx c m) ∨ (∃ j, i = .pmask j) ∨ ∃ m a b, i = .pack m a b

/-- The word `w` violates what the cause stands for (spec/60_exceptions.md R142 to R145); no word raises
ConfigurationError (R141). -/
def Offends (c : Config) (w : CmdWord) : FaultCause → Prop
  | .configurationError => False
  | .frameDimensionError => ∃ h v, decode w = .command (.encf h v) ∧ h.toNat ≠ c.panelHeight
  | .sourceReadError => decode w = .command .abort
  | .illegalCommand => ∃ why, decode w = .illegal why
  | .illegalOperand =>
    (∃ j, decode w = .command (.pmask j) ∧ c.bitDepth ≤ j.toNat) ∨
    (∃ x y p, decode w = .command (.fbwr x y p) ∧ (c.maxWidth ≤ x.toNat ∨ c.panelHeight ≤ y.toNat)) ∨
    (∃ h v, decode w = .command (.encf h v) ∧ h.toNat = c.panelHeight ∧ c.maxWidth < v.toNat)

/-- The codes of the causes that a word can raise (R140). -/
theorem Offends.code_eq {c : Config} {w : CmdWord} {f : FaultCause} (h : Offends c w f) :
    f.code = 2 ∨ f.code = 3 ∨ f.code = 4 ∨ f.code = 5 := by
  cases f with
  | configurationError => exact h.elim
  | frameDimensionError => exact .inl rfl
  | sourceReadError => exact .inr (.inl rfl)
  | illegalCommand => exact .inr (.inr (.inl rfl))
  | illegalOperand => exact .inr (.inr (.inr rfl))

/-- The fault state is explained exactly when CAUSE is the code of a cause that the word in FINFO raises. -/
theorem faultExplained_iff {s : State} :
    FaultExplained s ↔ (s.flt = true → ∃ f : FaultCause, s.cause = f.code ∧ Offends s.cfg s.finfo f) := by
  refine imp_congr_right fun _ => ⟨?_, ?_⟩
  · rintro (h | h | h | h)
    · exact ⟨.frameDimensionError, h⟩
    · exact ⟨.sourceReadError, h⟩
    · exact ⟨.illegalCommand, h⟩
    · exact ⟨.illegalOperand, h⟩
  · rintro ⟨f, h⟩
    cases f with
    | configurationError => exact h.2.elim
    | frameDimensionError => exact .inl h
    | sourceReadError => exact .inr (.inl h)
    | illegalCommand => exact .inr (.inr (.inl h))
    | illegalOperand => exact .inr (.inr (.inr h))

/-- The next states a word can lead to from `s`, each with the condition under which it does. -/
inductive WordEffect (w : CmdWord) (s : State) : State → Prop
  /-- The fault state (R149), or an ENCF at the cap (R117). -/
  | nothing : WordEffect w s s
  | result (i : Instr) (v : Byte) (hrun : s.flt = false) (hdec : decode w = .command i) (hres : ProducesResult i) :
      WordEffect w s (s.writeResult v)
  | fault (f : FaultCause) (hrun : s.flt = false) (hoff : Offends s.cfg w f) : WordEffect w s (s.raise f w)
  | pixel (x : BitVec 16) (y : Byte) (p : Pixel) (hrun : s.flt = false) (hdec : decode w = .command (.fbwr x y p))
      (hx : x.toNat < s.cfg.maxWidth) (hy : y.toNat < s.cfg.panelHeight) :
      WordEffect w s (s.writePixel ⟨x.toNat, y.toNat⟩ p)
  | frame (h v : BitVec 16) (out : List Byte) (hrun : s.flt = false) (hdec : decode w = .command (.encf h v))
      (hcap : s.frames.toNat < s.cfg.frameCap) (hout : encodeFrame s.cfg v.toNat s.fb = .ok out) :
      WordEffect w s (s.appendFrame out)
  | deliver (hrun : s.flt = false) (hdec : decode w = .command .commit) : WordEffect w s s.deliver

/-- What a word that decodes to a command does. -/
theorem WordEffect.of_exec {w : CmdWord} {i : Instr} {s t : State} (hdec : decode w = .command i)
    (h : exec i s = .next t) : WordEffect w s t := by
  obtain rfl := encode_of_decode hdec
  rcases exec_next h with ⟨-, rfl⟩ | ⟨hrun, ⟨v, rfl, hv⟩ | ⟨j, rfl, hj, rfl⟩ | ⟨x, y, p, rfl, hxy, rfl⟩ |
    ⟨x, y, p, rfl, hxy, rfl⟩ | ⟨_, v, -, -, rfl⟩ | ⟨hh, v, rfl, -, hheight, rfl⟩ | ⟨hh, v, rfl, -, hheight, hv, rfl⟩ |
    ⟨hh, v, out, rfl, hcap, -, -, hout, rfl⟩ | ⟨rfl, rfl⟩ | ⟨rfl, rfl⟩⟩
  · exact .nothing
  · exact .result i v hrun hdec hv
  · exact .fault .illegalOperand hrun (.inl ⟨j, hdec, by simpa [planeInRange] using hj⟩)
  · simp only [coordInRange, Bool.and_eq_true, decide_eq_true_eq] at hxy
    exact .pixel x y p hrun hdec hxy.1 hxy.2
  · have hout : s.cfg.maxWidth ≤ x.toNat ∨ s.cfg.panelHeight ≤ y.toNat := by
      simp only [coordInRange, Bool.and_eq_false_iff, decide_eq_false_iff_not, not_lt] at hxy
      exact hxy
    exact .fault .illegalOperand hrun (.inr (.inl ⟨x, y, p, hdec, hout⟩))
  · exact .nothing
  · exact .fault .frameDimensionError hrun ⟨hh, v, hdec, by simpa [heightAccepted] using hheight⟩
  · exact .fault .illegalOperand hrun
      (.inr (.inr ⟨hh, v, hdec, by simpa [heightAccepted] using hheight, by simpa [widthAccepted] using hv⟩))
  · exact .frame hh v out hrun hdec hcap hout
  · exact .deliver hrun hdec
  · exact .fault .sourceReadError hrun hdec

/-- What an illegal word does. -/
theorem WordEffect.of_execIllegal {w : CmdWord} {why : IllegalReason} {s t : State} (hdec : decode w = .illegal why)
    (h : execIllegal w s = .next t) : WordEffect w s t := by
  rcases execIllegal_next h with ⟨-, rfl⟩ | ⟨hrun, rfl⟩
  · exact .nothing
  · exact .fault .illegalCommand hrun ⟨why, hdec⟩

/-- What a step does: nothing where nothing is issued, the reset, or the effect of the issued word. -/
theorem step_effect {s t : State} (h : step s = .next t) :
    t = s ∨
    (∃ rest, s.hostIn = .reset :: rest ∧ t = State.applyReset { s with hostIn := rest }) ∨
    (∃ w rest, s.hostIn = .command w :: rest ∧ WordEffect w { s with hostIn := rest } t) := by
  rcases step_next h with ⟨-, rfl⟩ | hreset | ⟨w, rest, i, hin, hdec, hx⟩ | ⟨w, rest, why, hin, hdec, hx⟩
  · exact .inl rfl
  · exact .inr (.inl hreset)
  · exact .inr (.inr ⟨w, rest, hin, .of_exec hdec hx⟩)
  · exact .inr (.inr ⟨w, rest, hin, .of_execIllegal hdec hx⟩)

end Sys2Proof.Machine
end

section
/-! PROOFS. The bytes of a frame: the packer drives the six lane bits only (spec/42_pixel_packer.md R103), and a frame of width
`w` has a byte for each position (spec/43_frame_sequencer.md R121). -/

namespace Sys2Proof.Machine

/-- A mask on a lane is a mask on the lane's bit. -/
theorem lane_and (c : Config) (m channel bit k : Byte) : lane c m channel bit &&& k = lane c m channel (bit &&& k) := by
  unfold lane
  split
  · rfl
  · exact BitVec.zero_and

@[simp] theorem lane_zero (c : Config) (m channel : Byte) : lane c m channel 0#8 = 0 := by simp [lane]

/-- Bits 5 and 2 of a packed byte are 0 (R103). -/
theorem packByte_and_unused (c : Config) (m : Byte) (a b : Pixel) : packByte c m a b &&& 0x24 = 0 := by
  simp [packByte, BitVec.and_or_distrib_right, lane_and]

/-- The bytes of a frame have bits 5 and 2 clear (R103). -/
theorem layoutBytes_encodeFrame {c : Config} {w : Nat} {fb : Memory} {out : List Byte}
    (h : encodeFrame c w fb = .ok out) : LayoutBytes out := by
  intro byte hbyte
  have hmem : Except.ok byte ∈ (frameOrder c w).map (packAt c fb) := by
    rw [packAll_eq_ok.mp h]
    exact List.mem_map_of_mem hbyte
  obtain ⟨p, -, hp⟩ := List.mem_map.mp hmem
  obtain ⟨a, b, -, -, rfl⟩ := packAt_eq_ok.mp hp
  exact packByte_and_unused c _ a b

/-- How many bytes a frame has (R121). -/
theorem length_encodeFrame {c : Config} {w : Nat} {fb : Memory} {out : List Byte}
    (h : encodeFrame c w fb = .ok out) : out.length = c.bitDepth * 16 * w := by
  have hlen := congrArg List.length (packAll_eq_ok.mp h)
  rw [List.length_map, List.length_map, length_frameOrder] at hlen
  exact hlen.symm

theorem layoutBytes_nil : LayoutBytes [] := by simp [LayoutBytes]

theorem LayoutBytes.append {l k : List Byte} (hl : LayoutBytes l) (hk : LayoutBytes k) : LayoutBytes (l ++ k) :=
  List.forall_mem_append.mpr ⟨hl, hk⟩

end Sys2Proof.Machine
end

section
/-! PROOFS. Each named operation keeps the invariants of the registers and of the memories, and so every step does (O18), and
every step keeps the fault state explained (O19). -/

namespace Sys2Proof.Machine

variable {s : State}

/-! ### The registers -/

theorem RegistersOk.writeResult (h : RegistersOk s) (hrun : s.flt = false) (v : Byte) :
    RegistersOk (s.writeResult v) where
  reserved_zero := by simpa using h.reserved_zero
  cause_zero := by simpa using h.cause_zero
  cause_legal := by simp [hrun]
  rv_clear := by simp [hrun]
  finfo_zero := by simpa using h.finfo_zero
  acc_empty := by simp [hrun]
  frames_le := h.frames_le
  acc_of_no_frame := h.acc_of_no_frame

theorem RegistersOk.raise (h : RegistersOk s) {f : FaultCause} {w : CmdWord} (hoff : Offends s.cfg w f) :
    RegistersOk (s.raise f w) where
  reserved_zero := by simpa using h.reserved_zero
  cause_zero := by simp
  cause_legal _ := by
    rw [State.cause_raise]
    rcases hoff.code_eq with hc | hc | hc | hc <;> simp [hc]
  rv_clear _ := State.rv_raise s f w
  finfo_zero := by simp
  acc_empty _ := rfl
  frames_le := h.frames_le
  acc_of_no_frame _ := rfl

theorem RegistersOk.appendFrame (h : RegistersOk s) (hrun : s.flt = false)
    (hcap : s.frames.toNat < s.cfg.frameCap) (out : List Byte) : RegistersOk (s.appendFrame out) where
  reserved_zero := h.reserved_zero
  cause_zero := h.cause_zero
  cause_legal := h.cause_legal
  rv_clear := h.rv_clear
  finfo_zero := h.finfo_zero
  acc_empty := by simp [hrun]
  frames_le := (toNat_frames_succ hcap).trans_le hcap
  acc_of_no_frame hzero := by
    have hsucc := toNat_frames_succ hcap
    rw [show s.frames + 1 = 0 from hzero] at hsucc
    simp at hsucc

theorem RegistersOk.deliver (h : RegistersOk s) : RegistersOk s.deliver :=
  { h with
    acc_empty := fun _ => rfl
    frames_le := Nat.zero_le _
    acc_of_no_frame := fun _ => rfl }

theorem registersOk_applyReset (s : State) : RegistersOk s.applyReset where
  reserved_zero := (by decide : statusReserved 0 = 0)
  cause_zero := by simp
  cause_legal := by simp
  rv_clear := by simp
  finfo_zero := by simp
  acc_empty := by simp
  frames_le := Nat.zero_le _
  acc_of_no_frame := by simp

/-! ### The memories -/

theorem MemoriesOk.writePixel (h : MemoriesOk s) {x y : Nat} (hx : x < s.cfg.maxWidth) (hy : y < s.cfg.panelHeight)
    (p : Pixel) : MemoriesOk (s.writePixel ⟨x, y⟩ p) :=
  { h with
    fb_wf := Memory.write_wf _ p h.fb_wf
    fb_in_range := fun e he => by
      rcases Memory.mem_write he with rfl | he
      · exact ⟨hx, hy⟩
      · exact h.fb_in_range e he }

theorem MemoriesOk.raise (h : MemoriesOk s) (f : FaultCause) (w : CmdWord) : MemoriesOk (s.raise f w) :=
  { h with
    acc_layout := layoutBytes_nil
    acc_length := Nat.dvd_zero _ }

theorem MemoriesOk.appendFrame (h : MemoriesOk s) {w : Nat} {out : List Byte}
    (hout : encodeFrame s.cfg w s.fb = .ok out) : MemoriesOk (s.appendFrame out) :=
  { h with
    acc_layout := h.acc_layout.append (layoutBytes_encodeFrame hout)
    acc_length := by
      have hacc := h.acc_length
      simp only [State.appendFrame_cfg, State.appendFrame_acc, List.length_append, length_encodeFrame hout,
        Config.half_eq] at hacc ⊢
      exact Nat.dvd_add hacc (Nat.dvd_mul_right _ _) }

theorem MemoriesOk.deliver (h : MemoriesOk s) : MemoriesOk s.deliver :=
  { h with
    acc_layout := layoutBytes_nil
    acc_length := Nat.dvd_zero _
    sink_layout := List.forall_mem_append.mpr ⟨h.sink_layout, List.forall_mem_singleton.mpr h.acc_layout⟩
    sink_length := List.forall_mem_append.mpr ⟨h.sink_length, List.forall_mem_singleton.mpr h.acc_length⟩ }

/-- A reset leaves the artifacts delivered and empties the other memories. -/
theorem memoriesOk_applyReset (hlayout : ∀ a ∈ s.sink, LayoutBytes a)
    (hlength : ∀ a ∈ s.sink, s.cfg.bitDepth * s.cfg.half ∣ a.length) : MemoriesOk s.applyReset where
  fb_wf := Memory.reset_wf
  fb_in_range := by simp
  acc_layout := layoutBytes_nil
  acc_length := Nat.dvd_zero _
  sink_layout := hlayout
  sink_length := hlength

/-! ### Every step -/

/-- The invariants do not speak of what the host has still to issue. -/
theorem Inv.setHostIn (h : Inv s) (rest : List HostAction) : Inv { s with hostIn := rest } :=
  ⟨{ h.registers with }, { h.memories with }⟩

theorem Inv.wordEffect {w : CmdWord} {t : State} (h : Inv s) (he : WordEffect w s t) : Inv t := by
  obtain ⟨hreg, hmem⟩ := h
  cases he with
  | nothing => exact ⟨hreg, hmem⟩
  | result i v hrun => exact ⟨hreg.writeResult hrun v, { hmem with }⟩
  | fault f _ hoff => exact ⟨hreg.raise hoff, hmem.raise f w⟩
  | pixel x y p _ _ hx hy => exact ⟨{ hreg with }, hmem.writePixel hx hy p⟩
  | frame _ v out hrun _ hcap hout => exact ⟨hreg.appendFrame hrun hcap out, hmem.appendFrame hout⟩
  | deliver => exact ⟨hreg.deliver, hmem.deliver⟩

/-- Settles O18, by the effects of a step: each named operation keeps the invariants. -/
theorem stepKeepsInv : Obligations.StepKeepsInv := by
  intro s t hs h
  rcases step_effect h with rfl | ⟨rest, -, rfl⟩ | ⟨w, rest, -, he⟩
  · exact hs
  · exact ⟨registersOk_applyReset _, memoriesOk_applyReset hs.memories.sink_layout hs.memories.sink_length⟩
  · exact (hs.setHostIn rest).wordEffect he

theorem faultExplained_of_running (hrun : s.flt = false) : FaultExplained s :=
  fun hflt => absurd (hrun.symm.trans hflt) Bool.false_ne_true

theorem FaultExplained.wordEffect {w : CmdWord} {t : State} (h : FaultExplained s) (he : WordEffect w s t) :
    FaultExplained t := by
  cases he with
  | nothing => exact h
  | fault f _ hoff => exact faultExplained_iff.mpr fun _ => ⟨f, State.cause_raise s f w, hoff⟩
  | result i v hrun => exact faultExplained_of_running ((State.flt_writeResult s v).trans hrun)
  | pixel | frame | deliver => exact h

/-- Settles O19: a word enters the fault state with the cause it raises and itself in FINFO, and in the fault state a word
changes nothing. -/
theorem stepKeepsFaultExplained : Obligations.StepKeepsFaultExplained := by
  intro s t hs h
  rcases step_effect h with rfl | ⟨rest, -, rfl⟩ | ⟨w, rest, -, he⟩
  · exact hs
  · exact faultExplained_of_running (State.flt_applyReset _)
  · exact FaultExplained.wordEffect (s := { s with hostIn := rest }) hs he

/-- Settles O17: the reset state is a state after reset, with nothing in SINK. -/
theorem resetMeetsInvariants : Obligations.ResetMeetsInvariants :=
  have hreset : State.reset.applyReset = State.reset := rfl
  ⟨hreset ▸ ⟨registersOk_applyReset _, memoriesOk_applyReset (by simp) (by simp)⟩,
    hreset ▸ faultExplained_of_running (State.flt_applyReset _)⟩

end Sys2Proof.Machine
end

section
/-! PROOFS. Who writes FRAMES, STATUS, RES and FINFO (spec/10_state.md R24 to R28), and what reset leaves (R33). -/

namespace Sys2Proof.Machine

/-- A port read of RES gives its contents while RV is 1 (R24). -/
theorem readRes_of_rv {s : State} (h : s.rv = true) : s.readRes = some s.res := by simp [State.readRes, h]

/-- A port read of RES gives no value while RV is 0 (R24). -/
theorem readRes_of_not_rv {s : State} (h : s.rv = false) : s.readRes = none := by simp [State.readRes, h]

/-- The step that takes a reset from the port. -/
theorem step_of_reset {s : State} {rest : List HostAction} (h : s.hostIn = .reset :: rest) :
    step s = .next (State.applyReset { s with hostIn := rest }) := by
  simp [step, State.takeAction, h]

/-- Settles O16: a reset answers `applyReset`, each of whose fields is at the value of R33, and the state before the first
command is such a state. -/
theorem resetValues : Obligations.ResetValues := by
  refine ⟨fun s rest hin => ⟨_, step_of_reset hin, fun _ => rfl, rfl, rfl, ?_, rfl,
    readRes_of_not_rv (State.rv_applyReset _), rfl, rfl, rfl, rfl⟩, fun _ => rfl, rfl, rfl, rfl,
    readRes_of_not_rv (by decide : statusRv 0 = false), rfl, rfl, ?_, rfl⟩
  · exact (by decide : (0 : BitVec 8) &&& 0xF3 = 0)
  · show maskSequence 6 = _
    decide

/-- Settles O48, by the effects of a step: ENCF appends a frame below the cap, COMMIT delivers and reset clears; no other effect
writes FRAMES. -/
theorem framesCountsEncodedFrames : Obligations.FramesCountsEncodedFrames := by
  intro s t h hne
  rcases step_effect h with rfl | ⟨rest, hin, rfl⟩ | ⟨w, rest, hin, he⟩
  · exact absurd rfl hne
  · exact .inr ⟨rfl, .inl ⟨rest, hin⟩⟩
  · cases he with
    | nothing | result | fault | pixel => exact absurd rfl hne
    | frame hh v out _ hdec hcap => exact .inl ⟨toNat_frames_succ hcap, hcap, w, rest, hh, v, hin, hdec⟩
    | deliver _ hdec => exact .inr ⟨rfl, .inr ⟨w, rest, hin, hdec⟩⟩

/-- What a port read of STATUS gives, field by field: the mask of R25 keeps FLT, RV and CAUSE. -/
theorem readStatus_fields (s : State) :
    s.readStatus.extractLsb' 2 2 = 0 ∧ s.readStatus.getLsbD 0 = s.flt ∧ s.readStatus.getLsbD 1 = s.rv ∧
      s.readStatus.extractLsb' 4 4 = s.cause := by
  simp only [State.readStatus, State.flt, State.rv, State.cause]
  generalize s.status = status
  revert status
  decide

/-- Settles O49, by the effects of a step: results set RV, a fault entry writes FLT, RV and CAUSE, reset clears; no other effect
writes STATUS. -/
theorem statusFieldsWrittenAsStated : Obligations.StatusFieldsWrittenAsStated := by
  refine ⟨fun s t h => ?_, readStatus_fields⟩
  rcases step_effect h with rfl | ⟨rest, hin, rfl⟩ | ⟨w, rest, hin, he⟩
  · exact .inr (.inr (.inr rfl))
  · exact .inl ⟨rest, hin, rfl⟩
  · cases he with
    | nothing | pixel | frame | deliver => exact .inr (.inr (.inr rfl))
    | result i v hrun hdec hres =>
      exact .inr (.inr (.inl ⟨hrun, (State.flt_writeResult _ v).trans hrun, State.rv_writeResult _ v,
        State.cause_writeResult _ v, statusReserved_setRv _, w, rest, i, hin, hdec, hres⟩))
    | fault f hrun hoff =>
      refine .inr (.inl ⟨hrun, State.flt_raise _ f w, State.rv_raise _ f w, statusReserved_enterFault _ _, ?_⟩)
      rw [State.cause_raise]
      exact hoff.code_eq

/-- Settles O50, by the effects of a step: only a result and reset write RES. -/
theorem resWrittenOnlyByResults : Obligations.ResWrittenOnlyByResults := by
  refine ⟨fun s t h hne => ?_, fun _ => ⟨readRes_of_rv, readRes_of_not_rv⟩⟩
  rcases step_effect h with rfl | ⟨rest, hin, rfl⟩ | ⟨w, rest, hin, he⟩
  · exact absurd rfl hne
  · exact .inl ⟨rest, hin⟩
  · cases he with
    | nothing | fault | pixel | frame | deliver => exact absurd rfl hne
    | result i v _ hdec hres => exact .inr ⟨State.rv_writeResult _ v, w, rest, i, hin, hdec, hres⟩

/-- Settles O51, by the effects of a step: a fault entry writes FINFO with the issued word, and only it enters the fault
state. -/
theorem finfoHoldsTheFaultingWord : Obligations.FinfoHoldsTheFaultingWord := by
  intro s t h
  rcases step_effect h with rfl | ⟨rest, hin, rfl⟩ | ⟨w, rest, hin, he⟩
  · exact ⟨absurd rfl, fun hrun hflt => absurd (hrun.symm.trans hflt) Bool.false_ne_true⟩
  · exact ⟨fun _ => .inl ⟨rfl, rest, hin⟩, by simp⟩
  · cases he with
    | fault f hrun => exact ⟨fun _ => .inr ⟨hrun, State.flt_raise _ f w, rest, hin⟩, fun _ _ => ⟨rest, hin⟩⟩
    | nothing | pixel | frame | deliver =>
      exact ⟨absurd rfl, fun hrun hflt => absurd (hrun.symm.trans hflt) Bool.false_ne_true⟩
    | result i v =>
      exact ⟨absurd rfl, fun hrun hflt =>
        absurd (hrun.symm.trans ((State.flt_writeResult _ v).symm.trans hflt)) Bool.false_ne_true⟩

end Sys2Proof.Machine
end

section
/-! PROOFS. The length of ACC along a run of commands (spec/10_state.md R27, spec/43_frame_sequencer.md R121, R128). -/

namespace Sys2Proof.Machine

/-- The widths of the frames that are encoded, `n` of the run encoded before: those below the cap, in issue order (R128). -/
def encodedWidths (c : Config) (n : Nat) (cs : List Instr) : List Nat := (cs.filterMap encfWidth).take (c.frameCap - n)

theorem encodedWidths_cons_of_none {c : Config} {n : Nat} {i : Instr} (h : encfWidth i = none) (cs : List Instr) :
    encodedWidths c n (i :: cs) = encodedWidths c n cs := by
  rw [encodedWidths, List.filterMap_cons_none h, encodedWidths]

theorem encodedWidths_cons_encf {c : Config} {n : Nat} (hcap : n < c.frameCap) (h w : BitVec 16) (cs : List Instr) :
    encodedWidths c n (.encf h w :: cs) = w.toNat :: encodedWidths c (n + 1) cs := by
  have hsub : c.frameCap - n = c.frameCap - (n + 1) + 1 := by omega
  rw [encodedWidths, List.filterMap_cons_some (by rfl : encfWidth (.encf h w) = some w.toNat), hsub, List.take_succ_cons,
    encodedWidths]

theorem encodedWidths_of_cap {c : Config} {n : Nat} (hcap : c.frameCap ≤ n) (cs : List Instr) :
    encodedWidths c n cs = [] := by
  rw [encodedWidths, Nat.sub_eq_zero_of_le hcap, List.take_zero]

/-- A run without COMMIT that raises no fault adds to ACC the bytes of the frames it encodes, and to FRAMES their number. -/
theorem execAll_acc_frames {cs : List Instr} {s t : State} (h : execAll cs s = .next t) (ht : t.flt = false)
    (hcommit : .commit ∉ cs) :
    t.cfg = s.cfg ∧
    t.acc.length = s.acc.length + s.cfg.bitDepth * 16 * (encodedWidths s.cfg s.frames.toNat cs).sum ∧
    t.frames.toNat = s.frames.toNat + (encodedWidths s.cfg s.frames.toNat cs).length := by
  induction cs generalizing s with
  | nil =>
    cases h
    simp [encodedWidths]
  | cons i cs ih =>
    obtain ⟨hrun, u, hx, hu, hrest⟩ := execAll_cons_without_fault h ht
    obtain ⟨hi, hcs⟩ := List.ne_and_not_mem_of_not_mem_cons hcommit
    have hcfg : u.cfg = s.cfg := (exec_keeps_cfg_hostIn hx).1
    obtain ⟨tcfg, tacc, tframes⟩ := ih hrest hcs
    rw [hcfg] at tcfg tacc tframes
    refine ⟨tcfg, ?_⟩
    rcases (exec_without_fault hx hrun hu).2 with ⟨hh, w, out, rfl, hcap, hout, rfl⟩ | ⟨hh, w, rfl, hcap, rfl⟩ |
      ⟨rfl, -⟩ | ⟨hnone, -, hacc, hframes, -⟩
    · rw [State.appendFrame_frames, toNat_frames_succ hcap] at tacc tframes
      rw [State.appendFrame_acc, List.length_append, length_encodeFrame hout] at tacc
      rw [encodedWidths_cons_encf hcap, List.sum_cons, List.length_cons, tacc, tframes]
      exact ⟨by ring, by ring⟩
    · rw [encodedWidths_of_cap hcap] at tacc tframes ⊢
      exact ⟨tacc, tframes⟩
    · exact absurd rfl hi
    · rw [hframes] at tacc tframes
      rw [encodedWidths_cons_of_none hnone, tacc, hacc]
      exact ⟨rfl, tframes⟩

/-- Settles O56: the run starts with ACC empty and FRAMES 0. -/
theorem accLengthIsTheSumOfWidths : Obligations.AccLengthIsTheSumOfWidths := by
  intro cs s t h ht hcommit hacc hframes
  obtain ⟨hcfg, tacc, tframes⟩ := execAll_acc_frames h ht hcommit
  have hwidths : encodedWidths s.cfg s.frames.toNat cs = (cs.filterMap encfWidth).take s.cfg.frameCap := by
    simp [encodedWidths, hframes]
  rw [hwidths, hacc, List.length_nil, Nat.zero_add, ← hcfg] at tacc
  rw [hwidths, hframes] at tframes
  refine ⟨hcfg ▸ tacc, by simpa using tframes, fun hdepth => ?_⟩
  rw [hdepth] at tacc
  exact hcfg ▸ tacc

end Sys2Proof.Machine
end

section
/-! PROOFS. A command word carried as bytes (spec/20_memory.md R47). -/

namespace Sys2Proof

/-- The byte at position `i` of a carried word. -/
theorem getD_wordBytes (w : CmdWord) {i : Nat} (hi : i < 8) : (wordBytes w).getD i 0 = w.extractLsb' (8 * i) 8 := by
  simp [wordBytes, List.getD_eq_getElem?_getD, hi]

/-- A carried word is read back whole: each byte put back at its place is the word under the byte's mask, and the eight masks
make up a whole word. -/
theorem takeWord_wordBytes_append (w : CmdWord) (rest : List Byte) : takeWord (wordBytes w ++ rest) = some (w, rest) := by
  have hmasks : ∀ m : CmdWord, m = BitVec.allOnes 64 → some (w &&& m, rest) = some (w, rest) := fun m hm => by
    rw [hm, BitVec.and_allOnes]
  rw [wordBytes, show List.range 8 = [0, 1, 2, 3, 4, 5, 6, 7] by decide]
  simp only [List.map_cons, List.map_nil, List.cons_append, List.nil_append, takeWord, place_extractLsb',
    ← BitVec.and_or_distrib_left]
  exact hmasks _ (by decide)

/-- Settles O8. -/
theorem commandBytesRoundTrip : Obligations.CommandBytesRoundTrip := by
  refine fun w rest => ⟨takeWord_wordBytes_append w rest, fun i hi => ?_⟩
  rw [getD_wordBytes w hi, BitVec.extractLsb'_toNat, Nat.shiftRight_eq_div_pow]

end Sys2Proof
end

section
/-! PROOFS. Who writes the memories: FB (spec/20_memory.md R41, R42), ACC (R44) and SINK (R46). -/

namespace Sys2Proof.Machine

/-- Settles O34, by the effects of a step: FBWR writes its cell and no other cell, reset empties FB; no other effect writes
FB. -/
theorem cellHoldsItsLastPixel : Obligations.CellHoldsItsLastPixel := by
  intro s t at_ h hne
  rcases step_effect h with rfl | ⟨rest, hin, rfl⟩ | ⟨w, rest, hin, he⟩
  · exact absurd rfl hne
  · exact .inl ⟨rest, hin, rfl⟩
  · cases he with
    | nothing | result | fault | frame | deliver => exact absurd rfl hne
    | pixel x y p _ hdec =>
      have hcell : at_ = ⟨x.toNat, y.toNat⟩ := by
        by_contra hother
        exact hne (Memory.read_write_other s.fb p hother)
      subst hcell
      exact .inr ⟨w, rest, x, y, p, hin, hdec, rfl, Memory.read_write_same s.fb _ p⟩

/-- Settles O46, by the effects of a step: COMMIT delivers ACC; no other effect writes SINK. -/
theorem sinkGrowsOnlyByCommit : Obligations.SinkGrowsOnlyByCommit := by
  intro s t h hne
  rcases step_effect h with rfl | ⟨rest, hin, rfl⟩ | ⟨w, rest, hin, he⟩
  · exact absurd rfl hne
  · exact absurd rfl hne
  · cases he with
    | nothing | result | fault | pixel | frame => exact absurd rfl hne
    | deliver hrun hdec => exact ⟨hrun, ⟨w, rest, hin, hdec⟩, rfl⟩

/-- Settles O47, by the effects of a step: ENCF appends a frame, fault entry discards ACC, COMMIT delivers it and reset clears
it; no other effect writes ACC. -/
theorem accIsAppendOnly : Obligations.AccIsAppendOnly := by
  intro s t h hne
  rcases step_effect h with rfl | ⟨rest, hin, rfl⟩ | ⟨w, rest, hin, he⟩
  · exact absurd rfl hne
  · exact .inr ⟨rfl, .inl ⟨rest, hin⟩⟩
  · cases he with
    | nothing | result | pixel => exact absurd rfl hne
    | fault f hrun => exact .inr ⟨rfl, .inr (.inl ⟨hrun, State.flt_raise _ f w⟩)⟩
    | frame hh v out _ hdec _ hout => exact .inl ⟨w, rest, hh, v, out, hin, hdec, hout, rfl⟩
    | deliver _ hdec => exact .inr ⟨rfl, .inr (.inr ⟨w, rest, hin, hdec⟩)⟩

end Sys2Proof.Machine
end

section
/-! PROOFS. The frames of a run and the artifact that COMMIT delivers (spec/20_memory.md R45, R51, spec/43_frame_sequencer.md
R122, R125, R128). -/

namespace Sys2Proof.Machine

/-- A run whose commands are ready, each where it stands, completes and raises no fault (R130, R162). -/
theorem execAll_of_cleanRun {cs : List Instr} {s : State} (hrun : s.flt = false)
    (hclean : CleanRun s.cfg cs s.frames.toNat s.fb) : ∃ t, execAll cs s = .next t ∧ t.flt = false := by
  induction cs generalizing s with
  | nil => exact ⟨s, rfl, hrun⟩
  | cons i cs ih =>
    obtain ⟨hready, hrest⟩ := hclean
    obtain ⟨u, hx, hu⟩ := exec_of_ready hrun hready
    obtain ⟨⟨-, hfb, hframes, -, hcfg, -⟩, -⟩ := exec_without_fault hx hrun hu
    obtain ⟨t, ht, htrun⟩ := ih hu (by rwa [hcfg, hframes, hfb])
    exact ⟨t, by rw [execAll, hx]; exact ht, htrun⟩

/-! ### The frames that a run encodes -/

theorem issuedFrames_cons_of_none {i : Instr} (h : encfWidth i = none) (cs : List Instr) (fb : Memory) :
    issuedFrames (i :: cs) fb = issuedFrames cs (fbStep i fb) := by
  simp [issuedFrames, h]

theorem issuedFrames_cons_encf (h w : BitVec 16) (cs : List Instr) (fb : Memory) :
    issuedFrames (.encf h w :: cs) fb = (w.toNat, fb) :: issuedFrames cs fb := rfl

/-- The frames that are encoded, `n` of the run encoded before: those below the cap, in issue order (R128). -/
def encodedFrames (c : Config) (n : Nat) (cs : List Instr) (fb : Memory) : List (Nat × Memory) :=
  (issuedFrames cs fb).take (c.frameCap - n)

theorem encodedFrames_cons_of_none {c : Config} {n : Nat} {i : Instr} (h : encfWidth i = none) (cs : List Instr)
    (fb : Memory) : encodedFrames c n (i :: cs) fb = encodedFrames c n cs (fbStep i fb) := by
  rw [encodedFrames, issuedFrames_cons_of_none h, encodedFrames]

theorem encodedFrames_cons_encf {c : Config} {n : Nat} (hcap : n < c.frameCap) (h w : BitVec 16) (cs : List Instr)
    (fb : Memory) :
    encodedFrames c n (.encf h w :: cs) fb = (w.toNat, fb) :: encodedFrames c (n + 1) cs fb := by
  have hsub : c.frameCap - n = c.frameCap - (n + 1) + 1 := by omega
  rw [encodedFrames, issuedFrames_cons_encf, hsub, List.take_succ_cons, encodedFrames]

theorem encodedFrames_of_cap {c : Config} {n : Nat} (hcap : c.frameCap ≤ n) (cs : List Instr) (fb : Memory) :
    encodedFrames c n cs fb = [] := by
  rw [encodedFrames, Nat.sub_eq_zero_of_le hcap, List.take_zero]

/-- The frames `fs`, each from its own FB, encode to the bytes `outs`. -/
def EncodeTo (c : Config) (fs : List (Nat × Memory)) (outs : List (List Byte)) : Prop :=
  fs.map (fun f => encodeFrame c f.1 f.2) = outs.map .ok

theorem EncodeTo.cons {c : Config} {w : Nat} {fb : Memory} {out : List Byte} {fs : List (Nat × Memory)}
    {outs : List (List Byte)} (hout : encodeFrame c w fb = .ok out) (h : EncodeTo c fs outs) :
    EncodeTo c ((w, fb) :: fs) (out :: outs) :=
  congrArg₂ List.cons hout h

/-- Each of the byte lists is a frame's. -/
theorem EncodeTo.frame_of_mem {c : Config} {fs : List (Nat × Memory)} {outs : List (List Byte)} (h : EncodeTo c fs outs)
    {out : List Byte} (hmem : out ∈ outs) : ∃ f ∈ fs, encodeFrame c f.1 f.2 = .ok out := by
  have hok : Except.ok out ∈ fs.map fun f => encodeFrame c f.1 f.2 := by
    rw [h]
    exact List.mem_map_of_mem hmem
  exact List.mem_map.mp hok

/-- A run without COMMIT that raises no fault appends to ACC the frames it encodes, one whole frame after the other, and leaves
SINK alone (R51, R128). -/
theorem execAll_appends_encodedFrames {cs : List Instr} {s t : State} (h : execAll cs s = .next t) (ht : t.flt = false)
    (hcommit : .commit ∉ cs) :
    t.sink = s.sink ∧ t.fb = fbAfter cs s.fb ∧
    ∃ outs, EncodeTo s.cfg (encodedFrames s.cfg s.frames.toNat cs s.fb) outs ∧ t.acc = s.acc ++ outs.flatten := by
  induction cs generalizing s with
  | nil =>
    cases h
    exact ⟨rfl, rfl, [], by simp [EncodeTo, encodedFrames, issuedFrames], by simp⟩
  | cons i cs ih =>
    obtain ⟨hrun, u, hx, hu, hrest⟩ := execAll_cons_without_fault h ht
    obtain ⟨hi, hcs⟩ := List.ne_and_not_mem_of_not_mem_cons hcommit
    obtain ⟨⟨-, hfb, -, -, hcfg, -⟩, heffect⟩ := exec_without_fault hx hrun hu
    obtain ⟨tsink, tfb, outs, houts, tacc⟩ := ih hrest hcs
    rw [hfb] at tfb
    rw [hfb, hcfg] at houts
    rcases heffect with ⟨hh, w, out, rfl, hcap, hout, rfl⟩ | ⟨hh, w, rfl, hcap, rfl⟩ | ⟨rfl, -⟩ |
      ⟨hnone, -, hacc, hframes, hsink⟩
    · rw [State.appendFrame_frames, toNat_frames_succ hcap] at houts
      refine ⟨tsink, tfb, out :: outs, ?_, ?_⟩
      · rw [encodedFrames_cons_encf hcap]
        exact houts.cons hout
      · rw [tacc, State.appendFrame_acc, List.flatten_cons, List.append_assoc]
    · rw [encodedFrames_of_cap hcap] at houts
      refine ⟨tsink, tfb, outs, ?_, tacc⟩
      rwa [encodedFrames_of_cap hcap]
    · exact absurd rfl hi
    · rw [hframes] at houts
      refine ⟨tsink.trans hsink, tfb, outs, ?_, hacc ▸ tacc⟩
      rwa [encodedFrames_cons_of_none hnone]

/-! ### The artifact -/

/-- COMMIT after a run that raises no fault (R125). -/
theorem execAll_append_commit {cs : List Instr} {s u : State} (h : execAll cs s = .next u) (hu : u.flt = false) :
    execAll (cs ++ [.commit]) s = .next u.deliver := by
  have hcommit : exec .commit u = .next u.deliver := whenRunning_of_running _ hu
  simp [execAll_append, h, execAll, hcommit]

/-- Where an element stands in blocks of one length that lie one after the other. -/
theorem getElem?_flatten_of_length {α : Type} {blocks : List (List α)} {m : Nat} (hm : ∀ b ∈ blocks, b.length = m)
    {f k : Nat} {block : List α} (hf : blocks[f]? = some block) (hk : k < m) :
    blocks.flatten[f * m + k]? = block[k]? := by
  induction blocks generalizing f with
  | nil => cases hf
  | cons b blocks ih =>
    obtain ⟨hb, hblocks⟩ := List.forall_mem_cons.mp hm
    cases f with
    | zero =>
      cases hf
      rw [List.flatten_cons, Nat.zero_mul, Nat.zero_add, List.getElem?_append_left (hb.symm ▸ hk)]
    | succ f =>
      have hoff : (f + 1) * m + k = b.length + (f * m + k) := by rw [hb]; ring
      rw [List.flatten_cons, hoff, List.getElem?_append_right (Nat.le_add_right _ _), Nat.add_sub_cancel_left]
      exact ih hblocks hf

/-- Frames of one width lie at multiples of their length (R122). -/
theorem EncodeTo.getElem?_flatten {c : Config} {fs : List (Nat × Memory)} {outs : List (List Byte)} {w : Nat}
    (h : EncodeTo c fs outs) (hw : ∀ f ∈ fs, f.1 = w) {f k : Nat} {out : List Byte} (hf : outs[f]? = some out)
    (hk : k < c.bitDepth * 16 * w) : outs.flatten[f * (c.bitDepth * 16 * w) + k]? = out[k]? := by
  have hlength : ∀ out ∈ outs, out.length = c.bitDepth * 16 * w := by
    intro out hmem
    obtain ⟨f, hfs, hout⟩ := h.frame_of_mem hmem
    rw [length_encodeFrame hout, hw f hfs]
  exact getElem?_flatten_of_length hlength hf hk

/-- Settles O54: the run completes with the frames below the cap in ACC, and COMMIT delivers them. -/
theorem artifactHoldsTheFramesInOrder : Obligations.ArtifactHoldsTheFramesInOrder := by
  intro cs s hrun hframes hacc hcommit hclean
  obtain ⟨u, hu, hurun⟩ := execAll_of_cleanRun hrun (by rwa [hframes])
  obtain ⟨usink, ufb, outs, houts, uacc⟩ := execAll_appends_encodedFrames hu hurun hcommit
  have hencoded : encodedFrames s.cfg s.frames.toNat cs s.fb = (issuedFrames cs s.fb).take s.cfg.frameCap := by
    simp [encodedFrames, hframes]
  rw [hencoded] at houts
  rw [hacc, List.nil_append] at uacc
  refine ⟨outs, u.deliver, execAll_append_commit hu hurun, houts, ?_, rfl, rfl, hurun, ufb, ?_⟩
  · rw [State.deliver_sink, usink, uacc]
  · intro w hw f k out hf hk
    have hoffset := houts.getElem?_flatten hw hf hk
    refine ⟨hoffset, fun hdepth => ?_⟩
    have h96 : f * (s.cfg.bitDepth * 16 * w) = f * 96 * w := by rw [hdepth]; ring
    rwa [h96] at hoffset

end Sys2Proof.Machine
end

section
/-! PROOFS. The word of a command decodes to the command (spec/30_encoding.md R62 to R72): the command's row selects the word,
and each field, read back from its place, is the operand. -/

namespace Sys2Proof

/-- A field read back from its place. -/
theorem extractLsb'_place {width : Nat} (lo : Nat) (v : BitVec width) (hfit : lo + width ≤ 64) :
    (place lo v).extractLsb' lo width = v := by
  ext k hk
  have hk64 : lo + k < 64 := by omega
  simp [place, hk64, BitVec.getLsbD_eq_getElem hk]

/-- A field at its place leaves the other fields of the word 0. -/
theorem extractLsb'_place_of_disjoint {width : Nat} (lo : Nat) (v : BitVec width) (lo' width' : Nat)
    (hdisj : lo + width ≤ lo' ∨ lo' + width' ≤ lo) : (place lo v).extractLsb' lo' width' = 0 := by
  ext k hk
  have hout : lo' + k < lo ∨ width ≤ lo' + k - lo := by omega
  rcases hout with hlow | hhigh
  · simp [place, hlow]
  · simp [place, BitVec.getLsbD_of_ge v _ hhigh]

/-- The row of a command selects the command's word. -/
theorem selectedBy_encode (i : Instr) : i.row.selectedBy (encode i) = true := by
  cases i with
  | glut v => exact (Laws.EncodedWord.glut v).1
  | bitx c m => exact (Laws.EncodedWord.bitx c m).1
  | pmask j => exact (Laws.EncodedWord.pmask j).1
  | pack m a b => exact (Laws.EncodedWord.pack m a b).1
  | encf h w => exact (Laws.EncodedWord.encf h w).1
  | commit => exact Laws.EncodedWord.commit.1
  | abort => exact Laws.EncodedWord.abort.1
  | fbwr x y p => exact (Laws.EncodedWord.fbwr x y p).1

theorem decode_encode (i : Instr) : decode (encode i) = .command i := by
  have hsel := selectedBy_encode i
  cases i
  case commit => exact decode_of_rowCommit hsel
  case abort => exact decode_of_rowAbort hsel
  case' glut => rw [decode_of_rowGlut hsel]
  case' bitx => rw [decode_of_rowBitx hsel]
  case' pmask => rw [decode_of_rowPmask hsel]
  case' pack => rw [decode_of_rowPack hsel]
  case' encf => rw [decode_of_rowEncf hsel]
  case' fbwr => rw [decode_of_rowFbwr hsel]
  all_goals
    simp (disch := omega) [encode, placePixel, pixelField, rowGlut, rowBitx, rowPmask, rowPack, rowEncf, rowFbwr,
      BitVec.extractLsb'_or, extractLsb'_place, extractLsb'_place_of_disjoint]

/-- Settles O1, by the row that selects the word and the fields read back from their places. -/
theorem decodeEncodeRoundTrip : Obligations.DecodeEncodeRoundTrip :=
  decode_encode

/-- Settles O2: the fields of a selected word, put back at their places, make up the word. -/
theorem encodeDecodeRoundTrip : Obligations.EncodeDecodeRoundTrip :=
  fun _ _ => encode_of_decode

end Sys2Proof
end

section
/-! PROOFS. Which row of the opcode map selects a word, and which words none selects (spec/30_encoding.md R70 to R72). -/

namespace Sys2Proof

/-- A word that a row selects decodes to a command. -/
theorem decode_command_of_selectedBy {r : Row} (hr : r ∈ opcodeMap) {w : CmdWord} (h : r.selectedBy w = true) :
    ∃ i, decode w = .command i := by
  simp only [opcodeMap, List.mem_cons, List.not_mem_nil, or_false] at hr
  rcases hr with rfl | rfl | rfl | rfl | rfl | rfl | rfl | rfl
  · exact ⟨_, decode_of_rowGlut h⟩
  · exact ⟨_, decode_of_rowBitx h⟩
  · exact ⟨_, decode_of_rowPmask h⟩
  · exact ⟨_, decode_of_rowPack h⟩
  · exact ⟨_, decode_of_rowEncf h⟩
  · exact ⟨_, decode_of_rowCommit h⟩
  · exact ⟨_, decode_of_rowAbort h⟩
  · exact ⟨_, decode_of_rowFbwr h⟩

theorem decode_illegal_iff (w : CmdWord) :
    (∃ why, decode w = .illegal why) ↔ ∀ r ∈ opcodeMap, r.selectedBy w = false := by
  refine ⟨?_, fun h => ⟨_, decode_of_no_row h⟩⟩
  rintro ⟨why, hwhy⟩ r hr
  by_contra hsel
  obtain ⟨i, hi⟩ := decode_command_of_selectedBy hr (by simpa using hsel)
  cases hwhy.symm.trans hi

/-- The rows of the map that select a word are one at most: the map lists each row once, and two selecting rows are one. -/
theorem length_filter_selectedBy_le_one (w : CmdWord) : (opcodeMap.filter fun r => r.selectedBy w).length ≤ 1 := by
  have hnodup : (opcodeMap.filter fun r => r.selectedBy w).Nodup :=
    List.Nodup.filter _ (by decide : opcodeMap.Nodup)
  match hfilter : opcodeMap.filter fun r => r.selectedBy w with
  | [] => simp [hfilter]
  | [_] => simp [hfilter]
  | a :: b :: rest =>
    have hmem : ∀ r ∈ a :: b :: rest, r ∈ opcodeMap ∧ r.selectedBy w = true := fun r hr =>
      List.mem_filter.mp (hfilter ▸ hr)
    obtain ⟨ha, hasel⟩ := hmem a (by simp)
    obtain ⟨hb, hbsel⟩ := hmem b (by simp)
    obtain rfl := selectedBy_unique ha hb hasel hbsel
    simp [hfilter] at hnodup

/-- Settles O3: two rows differ in OP, and a row that selects a word decodes it. -/
theorem decodeIsTheUniqueRow : Obligations.DecodeIsTheUniqueRow :=
  fun w => ⟨length_filter_selectedBy_le_one w, fun _ => selectedBy_of_decode, decode_illegal_iff w⟩

/-! ### A row as OP and the reserved bits of its format -/

theorem place_inj {width lo : Nat} (hfit : lo + width ≤ 64) {u v : BitVec width} : place lo u = place lo v ↔ u = v := by
  refine ⟨fun h => ?_, congrArg _⟩
  rw [← extractLsb'_place lo u hfit, h, extractLsb'_place lo v hfit]

/-- A word under a field's mask is a value at the field's place exactly when the field holds the value. -/
theorem and_place_allOnes_eq_place_iff {width lo : Nat} (hfit : lo + width ≤ 64) (w : CmdWord) (v : BitVec width) :
    w &&& place lo (BitVec.allOnes width) = place lo v ↔ w.extractLsb' lo width = v := by
  rw [← place_extractLsb', place_inj hfit]

/-- A word under a field's mask is 0 exactly when the field is. -/
theorem and_place_allOnes_eq_zero_iff {width lo : Nat} (hfit : lo + width ≤ 64) (w : CmdWord) :
    w &&& place lo (BitVec.allOnes width) = 0 ↔ w.extractLsb' lo width = 0 := by
  rw [← and_place_allOnes_eq_place_iff hfit, show place lo (0 : BitVec width) = 0 by simp [place]]

/-- A word under two masks that share no bit, where the pattern lies under the first. -/
theorem and_or_eq_iff {w m n p : CmdWord} (hp : p &&& m = p) (hmn : m &&& n = 0) :
    w &&& (m ||| n) = p ↔ w &&& m = p ∧ w &&& n = 0 := by
  have absorb : ∀ a b : CmdWord, (a ||| b) &&& a = a := fun a b => by
    ext k
    simpa using Or.inl
  constructor
  · intro h
    refine ⟨?_, ?_⟩
    · calc w &&& m = w &&& (m ||| n) &&& m := by rw [BitVec.and_assoc, absorb]
        _ = p := by rw [h, hp]
    · calc w &&& n = w &&& (m ||| n) &&& n := by rw [BitVec.and_assoc, BitVec.or_comm, absorb]
        _ = p &&& m &&& n := by rw [h, hp]
        _ = 0 := by rw [BitVec.and_assoc, hmn]; exact BitVec.and_zero
  · rintro ⟨hm, hn⟩
    rw [BitVec.and_or_distrib_left, hm, hn]
    exact BitVec.or_zero

/-- A row whose mask covers OP and reserved bits. -/
theorem selectedBy_iff_of_mask {r : Row} {reserved : CmdWord} {op : BitVec 4}
    (hmask : r.mask = place 60 (BitVec.allOnes 4) ||| reserved) (hpattern : r.pattern = place 60 op)
    (hbelow : place 60 (BitVec.allOnes 4) &&& reserved = 0) (w : CmdWord) :
    r.selectedBy w = true ↔ w.toNat / 2 ^ 60 = op.toNat ∧ w &&& reserved = 0 := by
  have hp : place 60 op &&& place 60 (BitVec.allOnes 4) = place 60 op := by
    rw [and_place_allOnes_eq_place_iff (by omega), extractLsb'_place 60 op (by omega)]
  have hop : w.toNat / 2 ^ 60 = op.toNat ↔ w.extractLsb' 60 4 = op := by
    rw [← BitVec.toNat_inj, BitVec.extractLsb'_toNat, Nat.shiftRight_eq_div_pow]
    omega
  rw [hop, Row.selectedBy, beq_iff_eq, hmask, hpattern, and_or_eq_iff hp hbelow,
    and_place_allOnes_eq_place_iff (by omega)]

/-- A row whose format has one reserved field. -/
theorem selectedBy_iff_of_reserved_field {r : Row} (op : BitVec 4) (lo width : Nat) (hfit : lo + width ≤ 64)
    (hmask : r.mask = place 60 (BitVec.allOnes 4) ||| place lo (BitVec.allOnes width)) (hpattern : r.pattern = place 60 op)
    (hbelow : place 60 (BitVec.allOnes 4) &&& place lo (BitVec.allOnes width) = 0) (w : CmdWord) :
    r.selectedBy w = true ↔ w.toNat / 2 ^ 60 = op.toNat ∧ w.extractLsb' lo width = 0 := by
  rw [selectedBy_iff_of_mask hmask hpattern hbelow, and_place_allOnes_eq_zero_iff hfit]

theorem rowGlut_selectedBy_iff (w : CmdWord) :
    rowGlut.selectedBy w = true ↔ w.toNat / 2 ^ 60 = 1 ∧ w.extractLsb' 8 52 = 0 :=
  selectedBy_iff_of_reserved_field 1 8 52 (by decide) (by decide) (by decide) (by decide) w

theorem rowBitx_selectedBy_iff (w : CmdWord) :
    rowBitx.selectedBy w = true ↔ w.toNat / 2 ^ 60 = 2 ∧ w.extractLsb' 16 44 = 0 :=
  selectedBy_iff_of_reserved_field 2 16 44 (by decide) (by decide) (by decide) (by decide) w

theorem rowPmask_selectedBy_iff (w : CmdWord) :
    rowPmask.selectedBy w = true ↔ w.toNat / 2 ^ 60 = 3 ∧ w.extractLsb' 3 57 = 0 :=
  selectedBy_iff_of_reserved_field 3 3 57 (by decide) (by decide) (by decide) (by decide) w

theorem rowPack_selectedBy_iff (w : CmdWord) :
    rowPack.selectedBy w = true ↔ w.toNat / 2 ^ 60 = 4 ∧ w.extractLsb' 56 4 = 0 :=
  selectedBy_iff_of_reserved_field 4 56 4 (by decide) (by decide) (by decide) (by decide) w

theorem rowEncf_selectedBy_iff (w : CmdWord) :
    rowEncf.selectedBy w = true ↔ w.toNat / 2 ^ 60 = 5 ∧ w.extractLsb' 32 28 = 0 :=
  selectedBy_iff_of_reserved_field 5 32 28 (by decide) (by decide) (by decide) (by decide) w

theorem rowCommit_selectedBy_iff (w : CmdWord) :
    rowCommit.selectedBy w = true ↔ w.toNat / 2 ^ 60 = 6 ∧ w.extractLsb' 0 60 = 0 :=
  selectedBy_iff_of_reserved_field 6 0 60 (by decide) (by decide) (by decide) (by decide) w

theorem rowAbort_selectedBy_iff (w : CmdWord) :
    rowAbort.selectedBy w = true ↔ w.toNat / 2 ^ 60 = 7 ∧ w.extractLsb' 0 60 = 0 :=
  selectedBy_iff_of_reserved_field 7 0 60 (by decide) (by decide) (by decide) (by decide) w

theorem rowFbwr_selectedBy_iff (w : CmdWord) :
    rowFbwr.selectedBy w = true ↔ w.toNat / 2 ^ 60 = 8 ∧ w.extractLsb' 56 4 = 0 ∧ w.extractLsb' 24 8 = 0 := by
  rw [selectedBy_iff_of_mask (op := 8) (reserved := place 56 (BitVec.allOnes 4) ||| place 24 (BitVec.allOnes 8))
      (by decide) (by decide) (by decide),
    and_or_eq_iff (by simp) (by decide), and_place_allOnes_eq_zero_iff (by decide),
    and_place_allOnes_eq_zero_iff (by decide), (by rfl : (8 : BitVec 4).toNat = 8)]

end Sys2Proof
end

section
/-! PROOFS. What a step does with the word the host issues (spec/30_encoding.md R60, R71, R72). -/

namespace Sys2Proof.Machine

/-- The issued word is taken from the port and carried out. -/
theorem step_of_command {s : State} {w : CmdWord} {rest : List HostAction} (h : s.hostIn = .command w :: rest) :
    step s = execWord w { s with hostIn := rest } := by
  simp [step, State.takeAction, h]

theorem execWord_of_command {w : CmdWord} {i : Instr} (h : decode w = .command i) (s : State) :
    execWord w s = exec i s := by
  simp [execWord, h]

theorem execWord_of_illegal {w : CmdWord} {why : IllegalReason} (h : decode w = .illegal why) (s : State) :
    execWord w s = execIllegal w s := by
  simp [execWord, h]

/-- Fault entry (R148). -/
theorem faultEntered_raise (f : FaultCause) (cmd : CmdWord) (s : State) : FaultEntered f cmd s (s.raise f cmd) where
  flt := State.flt_raise s f cmd
  cause := State.cause_raise s f cmd
  rv := State.rv_raise s f cmd
  finfo := rfl
  acc := rfl
  frames := rfl
  fb _ := rfl
  res := rfl
  sink := rfl
  reserved := statusReserved_enterFault f.code s.status
  cfg := rfl
  hostIn := rfl

/-- Outside the fault state an illegal word raises IllegalCommand (R144). -/
theorem step_of_illegal {s : State} {w : CmdWord} {rest : List HostAction} {why : IllegalReason}
    (hin : s.hostIn = .command w :: rest) (hrun : s.flt = false) (hdec : decode w = .illegal why) :
    step s = .next (State.raise .illegalCommand w { s with hostIn := rest }) := by
  rw [step_of_command hin, execWord_of_illegal hdec]
  exact whenRunning_of_running _ hrun

/-- Settles O4: no row selects an illegal word, and a row selects a word by OP and the reserved bits, so the sixteen values of OP
are the cases. -/
theorem illegalWordsRaiseIllegalCommand : Obligations.IllegalWordsRaiseIllegalCommand := by
  refine ⟨fun w => ?_, ⟨.undefinedOpcode, by decide⟩, fun s w rest why hin hrun hdec => ?_⟩
  · have hop : w.toNat / 2 ^ 60 < 16 := by omega
    simp only [decode_illegal_iff, opcodeMap, List.forall_mem_cons, List.not_mem_nil, false_imp_iff, implies_true, and_true,
      ← Bool.not_eq_true, rowGlut_selectedBy_iff, rowBitx_selectedBy_iff, rowPmask_selectedBy_iff, rowPack_selectedBy_iff,
      rowEncf_selectedBy_iff, rowCommit_selectedBy_iff, rowAbort_selectedBy_iff, rowFbwr_selectedBy_iff]
    generalize w.toNat / 2 ^ 60 = op at hop ⊢
    interval_cases op <;> simp [imp_iff_not_or]
  · exact ⟨_, step_of_illegal hin hrun hdec, faultEntered_raise _ w _⟩

/-- What the decoder reads from a word carried as bytes is what it answers for the word (R47, R72). -/
theorem decode_of_decodeTableWord {nbits w : Nat} {i : Instr} (h : decodeTableWord nbits w = some i) :
    decode (tableWord nbits w) = .command i := by
  have hbytes : takeWord (wordBytes (tableWord nbits w)) = some (tableWord nbits w, []) := by
    simpa using takeWord_wordBytes_append (tableWord nbits w) []
  simp only [decodeTableWord, decodeBytes, hbytes] at h
  cases hdec : decode (tableWord nbits w) with
  | command i' => simpa [hdec] using h
  | illegal why => simp [hdec] at h

/-- Settles O20: the issued word is taken from the port, decoded and carried out. -/
theorem stepRunsDecodedCommand : Obligations.StepRunsDecodedCommand := by
  refine ⟨fun s w rest i hin hdec => ?_, fun s w i h => ?_⟩
  · rw [step_of_command hin, execWord_of_command hdec]
  · have hin : (s.withFetchWord 64 w).hostIn = .command (tableWord 64 w) :: s.hostIn := State.issueNext_hostIn s _
    rw [step_of_command hin, execWord_of_command (decode_of_decodeTableWord h)]
    rfl

end Sys2Proof.Machine
end

section
/-! PROOFS. The fields of a word as numbers: what the decoder reads (spec/30_encoding.md R69), where the encoder puts it (R62 to
R68), and the worked encodings (R76). -/

namespace Sys2Proof

/-- Settles O5: the row that selects the word says which fields the operands are. -/
theorem operandsReadFromTheirFields : Obligations.OperandsReadFromTheirFields := by
  intro w
  cases hdec : decode w with
  | illegal why => trivial
  | command i =>
    have hsel := selectedBy_of_decode hdec
    cases i
    case commit => trivial
    case abort => trivial
    case' glut => cases (decode_of_rowGlut hsel).symm.trans hdec
    case' bitx => cases (decode_of_rowBitx hsel).symm.trans hdec
    case' pmask => cases (decode_of_rowPmask hsel).symm.trans hdec
    case' pack => cases (decode_of_rowPack hsel).symm.trans hdec
    case' encf => cases (decode_of_rowEncf hsel).symm.trans hdec
    case' fbwr => cases (decode_of_rowFbwr hsel).symm.trans hdec
    all_goals simp [pixelField, Nat.shiftRight_eq_div_pow]

/-- A field put below the bits a word has adds its value at its place. -/
theorem toNat_or_place {width : Nat} (a : CmdWord) (lo : Nat) (v : BitVec width) (hfit : lo + width ≤ 64)
    (ha : 2 ^ (lo + width) ∣ a.toNat) : (a ||| place lo v).toNat = a.toNat + v.toNat * 2 ^ lo := by
  obtain ⟨q, hq⟩ := ha
  have hlt : (place lo v).toNat < 2 ^ (lo + width) := by
    rw [toNat_place lo v hfit, Nat.add_comm, Nat.pow_add]
    exact Nat.mul_lt_mul_of_pos_right v.isLt (Nat.two_pow_pos lo)
  rw [toNat_or_of_lt _ _ (lo + width) q (by rw [hq, Nat.mul_comm]) hlt, toNat_place lo v hfit]

/-- A pixel put below the bits a word has adds its three channels at its place. -/
theorem toNat_or_placePixel (a : CmdWord) (lo : Nat) (p : Pixel) (hfit : lo + 24 ≤ 64) (ha : 2 ^ (lo + 24) ∣ a.toNat) :
    (a ||| placePixel lo p).toNat = a.toNat + (p.r.toNat * 2 ^ 16 + p.g.toNat * 2 ^ 8 + p.b.toNat) * 2 ^ lo := by
  obtain ⟨q, hq⟩ := ha
  have hp : p.r.toNat * 2 ^ 16 + p.g.toNat * 2 ^ 8 + p.b.toNat < 2 ^ 24 := by omega
  have hlt : (placePixel lo p).toNat < 2 ^ (lo + 24) := by
    rw [toNat_placePixel lo p hfit, Nat.add_comm lo, Nat.pow_add]
    exact Nat.mul_lt_mul_of_pos_right hp (Nat.two_pow_pos lo)
  rw [toNat_or_of_lt _ _ (lo + 24) q (by rw [hq, Nat.mul_comm]) hlt, toNat_placePixel lo p hfit]

/-- Settles O6: the fields, from the highest down, each add their value below the bits there are. -/
theorem commandEncodings : Obligations.CommandEncodings := by
  refine ⟨fun v => ?_, fun c m => ?_, fun j => ?_, fun m a b => ?_, fun h w => ?_, rfl, rfl, fun x y p => ?_⟩
  · have hop : rowGlut.pattern.toNat = 1 * 2 ^ 60 := rfl
    have hv := toNat_or_place rowGlut.pattern 0 v (by omega) (by omega)
    rw [encode]
    omega
  · have hop : rowBitx.pattern.toNat = 2 * 2 ^ 60 := rfl
    have hm := toNat_or_place rowBitx.pattern 8 m (by omega) (by omega)
    have hc := toNat_or_place (rowBitx.pattern ||| place 8 m) 0 c (by omega) (by omega)
    rw [encode]
    omega
  · have hop : rowPmask.pattern.toNat = 3 * 2 ^ 60 := rfl
    have hj := toNat_or_place rowPmask.pattern 0 j (by omega) (by omega)
    rw [encode]
    omega
  · have hop : rowPack.pattern.toNat = 4 * 2 ^ 60 := rfl
    have hm := toNat_or_place rowPack.pattern 48 m (by omega) (by omega)
    have ha := toNat_or_placePixel (rowPack.pattern ||| place 48 m) 24 a (by omega) (by omega)
    have hb := toNat_or_placePixel (rowPack.pattern ||| place 48 m ||| placePixel 24 a) 0 b (by omega) (by omega)
    rw [encode]
    omega
  · have hop : rowEncf.pattern.toNat = 5 * 2 ^ 60 := rfl
    have hh := toNat_or_place rowEncf.pattern 16 h (by omega) (by omega)
    have hw := toNat_or_place (rowEncf.pattern ||| place 16 h) 0 w (by omega) (by omega)
    rw [encode]
    omega
  · have hop : rowFbwr.pattern.toNat = 8 * 2 ^ 60 := rfl
    have hx := toNat_or_place rowFbwr.pattern 40 x (by omega) (by omega)
    have hy := toNat_or_place (rowFbwr.pattern ||| place 40 x) 32 y (by omega) (by omega)
    have hp := toNat_or_placePixel (rowFbwr.pattern ||| place 40 x ||| place 32 y) 0 p (by omega) (by omega)
    rw [encode]
    omega

/-- Settles O7. -/
theorem workedEncodings : Obligations.WorkedEncodings := by
  unfold Obligations.WorkedEncodings
  decide

end Sys2Proof
end

section
/-! PROOFS. The assembler (spec/30_encoding.md R74, R75): which lines it takes, and the words of the lines it takes. -/

namespace Sys2Proof

theorem fits_iff {width value : Nat} : fits width value = true ↔ value < 2 ^ width := by
  simp [fits]

theorem AsmPixel.wellFormed_iff {p : AsmPixel} : p.wellFormed = true ↔ p.r < 256 ∧ p.g < 256 ∧ p.b < 256 := by
  simp [AsmPixel.wellFormed, fits_iff, and_assoc]

end Sys2Proof

namespace Sys2Proof.Machine

theorem assemble_of_wellFormed {c : Config} {line : AsmLine} (h : line.wellFormed c = true) :
    assemble c line = some (asmWords c line) := if_pos h

theorem assemble_of_not_wellFormed {c : Config} {line : AsmLine} (h : ¬line.wellFormed c = true) :
    assemble c line = none := if_neg h

/-- The assembler takes the line exactly where `Fits` holds, which gives what is claimed of a line it takes. -/
theorem accepted_or_refused {c : Config} {line : AsmLine} {Fits Accepted : Prop} [Decidable Fits]
    (hwf : line.wellFormed c = true ↔ Fits) (hok : assemble c line = some (asmWords c line) → Fits → Accepted) :
    if Fits then Accepted else assemble c line = none := by
  split
  · next h => exact hok (assemble_of_wellFormed (hwf.mpr h)) h
  · next h => exact assemble_of_not_wellFormed (mt hwf.mp h)

/-- An operand that fits its field is the field's value. -/
theorem toNat_ofNat_of_lt {width n : Nat} (h : n < 2 ^ width) : (BitVec.ofNat width n).toNat = n := by
  rw [BitVec.toNat_ofNat, Nat.mod_eq_of_lt h]

/-- A pixel that fits its fields is kept. -/
theorem toNat_asmPixel {p : AsmPixel} (h : p.r < 256 ∧ p.g < 256 ∧ p.b < 256) :
    (asmPixel p).r.toNat = p.r ∧ (asmPixel p).g.toNat = p.g ∧ (asmPixel p).b.toNat = p.b := by
  obtain ⟨hr, hg, hb⟩ := h
  exact ⟨toNat_ofNat_of_lt hr, toNat_ofNat_of_lt hg, toNat_ofNat_of_lt hb⟩

/-- Settles O10: what the assembler takes is one encoded command, which decodes to the operands written. -/
theorem assemblerFieldChecks : Obligations.AssemblerFieldChecks := by
  intro c
  refine ⟨fun v => ?_, fun v m => ?_, fun j => ?_, fun h v => ?_, fun x y p => ?_, fun m a b => ?_, ?_, ?_, fun n => ?_⟩
  · exact accepted_or_refused fits_iff fun ht hv => ⟨_, _, ht, decode_encode _, toNat_ofNat_of_lt hv⟩
  · exact accepted_or_refused (by simp [AsmLine.wellFormed, fits_iff]) fun ht ⟨hv, hm⟩ =>
      ⟨_, _, _, ht, decode_encode _, toNat_ofNat_of_lt hv, toNat_ofNat_of_lt hm⟩
  · exact accepted_or_refused fits_iff fun ht hj => ⟨_, _, ht, decode_encode _, toNat_ofNat_of_lt hj⟩
  · exact accepted_or_refused (by simp [AsmLine.wellFormed, fits_iff]) fun ht ⟨hh, hv⟩ =>
      ⟨_, _, _, ht, decode_encode _, toNat_ofNat_of_lt hh, toNat_ofNat_of_lt hv⟩
  · exact accepted_or_refused (by simp [AsmLine.wellFormed, fits_iff, and_assoc]) fun ht ⟨hx, hy, hp⟩ =>
      ⟨_, _, _, _, ht, decode_encode _, toNat_ofNat_of_lt hx, toNat_ofNat_of_lt hy,
        toNat_asmPixel (AsmPixel.wellFormed_iff.mp hp)⟩
  · refine accepted_or_refused (by simp [AsmLine.wellFormed, fits_iff, AsmPixel.wellFormed_iff, and_assoc])
      fun ht ⟨hm, ha, hb⟩ => ?_
    obtain ⟨har, hag, hab⟩ := toNat_asmPixel ha
    exact ⟨_, _, _, _, ht, decode_encode _, toNat_ofNat_of_lt hm, har, hag, hab, toNat_asmPixel hb⟩
  · exact ⟨_, assemble_of_wellFormed rfl, decode_encode _⟩
  · exact ⟨_, assemble_of_wellFormed rfl, decode_encode _⟩
  · exact accepted_or_refused fits_iff fun ht hn => ⟨_, ht, toNat_ofNat_of_lt hn⟩

/-! ### Pseudo-instructions -/

/-- A program whose lines are all taken. -/
theorem assembleAll_of_wellFormed {c : Config} {lines : List AsmLine} (h : ∀ line ∈ lines, line.wellFormed c = true) :
    assembleAll c lines = some (lines.flatMap (asmWords c)) := by
  induction lines with
  | nil => rfl
  | cons line rest ih =>
    obtain ⟨hline, hrest⟩ := List.forall_mem_cons.mp h
    simp [assembleAll, assemble_of_wellFormed hline, ih hrest]

/-- A program of one FBWR for each of a list of numbers. -/
theorem assembleAll_map_fbwr {c : Config} (ks : List Nat) (x y : Nat → Nat) (p : Nat → AsmPixel)
    (h : ∀ k ∈ ks, x k < 65536 ∧ y k < 256 ∧ (p k).wellFormed = true) :
    assembleAll c (ks.map fun k => .fbwr (x k) (y k) (p k)) = some (ks.map fun k => fbwrWord (x k) (y k) (p k)) := by
  rw [assembleAll_of_wellFormed]
  · rw [List.flatMap_map, List.map_eq_flatMap]
    rfl
  · intro line hline
    obtain ⟨k, hk, rfl⟩ := List.mem_map.mp hline
    obtain ⟨hx, hy, hp⟩ := h k hk
    simp [AsmLine.wellFormed, fits_iff, hx, hy, hp]

/-- Rows of one length in row-major order: the number `k` of a cell gives its column and its row. -/
theorem map_range_mul_eq_flatMap {α : Type} (f : Nat → Nat → α) {w : Nat} (hw : 0 < w) (n : Nat) :
    (List.range (n * w)).map (fun k => f (k % w) (k / w)) =
      (List.range n).flatMap fun y => (List.range w).map fun x => f x y := by
  induction n with
  | zero => simp
  | succ n ih =>
    have hrow : ∀ x ∈ List.range w, f ((n * w + x) % w) ((n * w + x) / w) = f x n := by
      intro x hx
      have hx : x < w := List.mem_range.mp hx
      rw [Nat.mul_add_mod', Nat.mod_eq_of_lt hx, Nat.mul_comm, Nat.mul_add_div hw, Nat.div_eq_of_lt hx, Nat.add_zero]
    rw [Nat.succ_mul, List.range_add, List.map_append, ih, List.range_succ, List.flatMap_append, List.map_map]
    simpa using hrow

theorem encframe_expands (c : Config) (w : Nat) : assemble c (.encframe w) = assemble c (.encf 32 w) := by
  have hwf : (AsmLine.encframe w).wellFormed c = (AsmLine.encf 32 w).wellFormed c := by
    simp [AsmLine.wellFormed, fits]
  rw [assemble, assemble, hwf]
  rfl

/-- The bit of a plane's mask lies in a byte. -/
theorem planeBit_lt (j : Nat) : 1 <<< (7 - j) < 2 ^ 8 := by
  rw [Nat.one_shiftLeft]
  exact Nat.pow_lt_pow_right (by decide) (by omega)

theorem packp_expands {c : Config} {j : Nat} (a b : AsmPixel) (hj : j < c.bitDepth) :
    assemble c (.packp j a b) = assemble c (.pack (1 <<< (7 - j)) a b) := by
  have hmask : fits 8 (1 <<< (7 - j)) = true := fits_iff.mpr (planeBit_lt j)
  have hwf : (AsmLine.packp j a b).wellFormed c = (AsmLine.pack (1 <<< (7 - j)) a b).wellFormed c := by
    simp [AsmLine.wellFormed, hj, hmask]
  rw [assemble, assemble, hwf]
  rfl

/-- The mask of a plane as a number (R91). -/
theorem toNat_planeMask {c : Config} {j : Nat} (hj : j < c.bitDepth) : (planeMask c j).toNat = 1 <<< (7 - j) := by
  rw [planeMask_eq c hj, toNat_ofNat_of_lt (planeBit_lt j)]

theorem fbfill_expands {c : Config} {w : Nat} {p : AsmPixel} (h1 : 1 ≤ w) (hw : w ≤ c.maxWidth)
    (hp : p.wellFormed = true) :
    ∃ ws, assemble c (.fbfill w p) = some ws ∧ ws.length = 32 * w ∧
      assembleAll c ((List.range (32 * w)).map fun k => .fbwr (k % w) (k / w) p) = some ws := by
  have hmax := c.maxWidth_ok.2
  have hwords : asmWords c (.fbfill w p) = (List.range (32 * w)).map fun k => fbwrWord (k % w) (k / w) p := by
    rw [map_range_mul_eq_flatMap (fun x y => fbwrWord x y p) h1, asmWords, c.panelHeight_ok]
  refine ⟨_, assemble_of_wellFormed (by simp [AsmLine.wellFormed, h1, hw, hp]), by simp [hwords], ?_⟩
  rw [hwords]
  refine assembleAll_map_fbwr _ _ _ _ fun k hk => ⟨?_, ?_, hp⟩
  · have := Nat.mod_lt k h1
    omega
  · have : k / w < 32 := Nat.div_lt_of_lt_mul (by rw [Nat.mul_comm]; exact List.mem_range.mp hk)
    omega

theorem fbcol_expands {c : Config} {x : Nat} {top bottom : AsmPixel} (hx : x < c.maxWidth)
    (htop : top.wellFormed = true) (hbottom : bottom.wellFormed = true) :
    ∃ ws, assemble c (.fbcol x top bottom) = some ws ∧ ws.length = 32 ∧
      assembleAll c ((List.range 32).map fun y => .fbwr x y (if y < 16 then top else bottom)) = some ws := by
  have hmax := c.maxWidth_ok.2
  have hwords : asmWords c (.fbcol x top bottom) =
      (List.range 32).map fun y => fbwrWord x y (if y < 16 then top else bottom) := by
    have hrows : List.range 32 = List.range 16 ++ (List.range 16).map (16 + ·) := by decide
    rw [asmWords, Config.half_eq, hrows, List.map_append, List.map_map]
    refine congrArg₂ List.append (List.map_congr_left fun y hy => ?_) (List.map_congr_left fun y _ => ?_)
    · rw [if_pos (List.mem_range.mp hy)]
    · simp [Nat.add_comm]
  refine ⟨_, assemble_of_wellFormed (by simp [AsmLine.wellFormed, hx, htop, hbottom]), by simp [hwords], ?_⟩
  rw [hwords]
  refine assembleAll_map_fbwr _ _ _ _ fun y hy => ⟨by omega, ?_, ?_⟩
  · have := List.mem_range.mp hy
    omega
  · split
    · exact htop
    · exact hbottom

/-- Settles O9: each accepted line expands as stated, and a line whose condition fails is refused. -/
theorem pseudoInstructionsExpand : Obligations.PseudoInstructionsExpand := by
  intro c
  refine ⟨encframe_expands c, fun j a b hj => ⟨packp_expands a b hj, ?_⟩, fun j a b hj => ?_,
    fun w p => fbfill_expands, fun w p hw => ?_, fun x top bottom => fbcol_expands, fun x top bottom hx => ?_⟩
  · rw [toNat_planeMask hj, packp_expands a b hj]
  all_goals
    refine assemble_of_not_wellFormed ?_
    simp only [AsmLine.wellFormed, Bool.and_eq_true, decide_eq_true_eq]
    omega

end Sys2Proof.Machine
end

section
/-! PROOFS. The gamma look-up (spec/40_gamma_lut.md R80 to R83): the laws of the corrected value come from the three properties
the table carries (R7), and what GLUT does is one written result. -/

namespace Sys2Proof.Machine

/-! ### The corrected value -/

@[simp] theorem correct_zero (c : Config) : correct c 0 = 0 := c.gamma.at_zero

@[simp] theorem correct_max (c : Config) : correct c 255 = 255 := c.gamma.at_max

/-- GAMMA is non-decreasing (P1 of R7). -/
theorem correct_mono (c : Config) {v w : Byte} (h : v ≤ w) : correct c v ≤ correct c w :=
  c.gamma.monotone v.toNat w.toNat h w.isLt

/-- Settles O12, by the properties P1 to P3 that every gamma table carries. -/
theorem gammaLaws : Obligations.GammaLaws :=
  fun c => ⟨correct_zero c, correct_max c, fun _ _ => correct_mono c⟩

/-! ### GLUT -/

/-- Writing a result leaves everything but RES and STATUS.RV unchanged. -/
theorem resultFrame_writeResult (v : Byte) (s : State) : ResultFrame s (s.writeResult v) where
  flt := State.flt_writeResult s v
  cause := State.cause_writeResult s v
  reserved := statusReserved_setRv s.status
  frames := rfl
  finfo := rfl
  acc := rfl
  fb _ := rfl
  sink := rfl
  cfg := rfl
  hostIn := rfl

/-- In the fault state GLUT has no effect (R149). -/
theorem exec_glut_of_flt {s : State} (h : s.flt = true) (v : Byte) : exec (.glut v) s = .next s :=
  whenRunning_of_flt _ h

/-- Outside the fault state GLUT writes the corrected value (R80). -/
theorem exec_glut_of_running {s : State} (h : s.flt = false) (v : Byte) :
    exec (.glut v) s = .next (s.writeResult (correct s.cfg v)) :=
  whenRunning_of_running _ h

/-- Settles O25: GLUT writes the corrected value as a result, and the corner values are those of the table. -/
theorem glutResult : Obligations.GlutResult := by
  refine fun v s => ⟨fun hflt => exec_glut_of_flt hflt v, fun hrun => ?_⟩
  have hres : (s.writeResult (correct s.cfg v)).readRes = some (correct s.cfg v) := State.readRes_writeResult s _
  refine ⟨_, exec_glut_of_running hrun v, hres, State.rv_writeResult s _, State.readStatus_writeResult s _,
    resultFrame_writeResult _ s, ?_, ?_⟩
  · rintro rfl
    rw [hres, correct_zero]
  · rintro rfl
    rw [hres, correct_max]

/-- Settles O26: the value written depends on the state by its configuration alone (R81). -/
theorem glutIsRepeatable : Obligations.GlutIsRepeatable := by
  intro v s s' hcfg hrun hrun'
  refine ⟨_, _, exec_glut_of_running hrun v, exec_glut_of_running hrun' v, ?_⟩
  rw [State.readRes_writeResult, State.readRes_writeResult, hcfg]

end Sys2Proof.Machine
end

section
/-! PROOFS. The bit-plane extractor (spec/41_bitplane.md R90 to R94): the mask of a plane is one bit of a byte, so the test of a
plane reads one bit of the corrected value; BITX and PMASK write what the test and the mask table give. -/

namespace Sys2Proof.Machine

/-! ### The plane masks -/

/-- A number with bit `k` alone set, as a word. -/
theorem ofNat_one_shiftLeft (width k : Nat) : BitVec.ofNat width (1 <<< k) = BitVec.twoPow width k := by
  apply BitVec.eq_of_toNat_eq
  rw [BitVec.toNat_ofNat, BitVec.toNat_twoPow, Nat.one_shiftLeft]

/-- The masks of a legal depth in the closed form of R91, which does not speak of the depth. -/
theorem maskSequence_eq_map_twoPow {d : Nat} (hd : d ≤ 7) :
    maskSequence d = (List.range d).map fun j => BitVec.twoPow 8 (7 - j) := by
  refine List.map_congr_left fun j hj => ?_
  have hj : j < d := List.mem_range.mp hj
  have hshift : d - j + (7 - d) = 7 - j := by omega
  simp only [hshift, ofNat_one_shiftLeft]

/-- No mask of a legal depth has bit 0 set (R91). -/
theorem one_notMem_maskSequence {d : Nat} (hd : d ≤ 7) : 0x01 ∉ maskSequence d := by
  rw [maskSequence_eq_map_twoPow hd]
  intro hmem
  obtain ⟨j, hj, hone⟩ := List.mem_map.mp hmem
  have hj : j < d := List.mem_range.mp hj
  have hbit : (BitVec.twoPow 8 (7 - j)).getLsbD 0 = true := by rw [hone]; rfl
  rw [BitVec.getLsbD_twoPow, Bool.and_eq_true, decide_eq_true_eq, decide_eq_true_eq] at hbit
  omega

/-- `masks(D)` answers for the legal depths (R90). -/
theorem masks_of_legal {d : Nat} (h1 : 1 ≤ d) (h7 : d ≤ 7) : masks d = .ok (maskSequence d) :=
  if_neg (by omega)

/-- Settles O13: the entries of the mask sequence are single bits, the last of them bit `8 - D`. -/
theorem planeMaskSet : Obligations.PlaneMaskSet := by
  refine ⟨fun d h1 h7 => ⟨maskSequence d, masks_of_legal h1 h7, by simp [maskSequence], one_notMem_maskSequence h7,
    fun j hj => ⟨by simp [maskSequence, hj], ?_⟩⟩, fun d hd => if_pos hd, rfl,
    fun c => masks_of_legal c.bitDepth_ok.1 c.bitDepth_ok.2⟩
  simp [maskSequence_eq_map_twoPow h7, hj, ofNat_one_shiftLeft]

/-! ### The bit test -/

/-- The bit test fails where no bit is set in both the value and the mask (R93). -/
theorem bitTest_eq_false_iff {v m : Byte} :
    bitTest v m = false ↔ ∀ k, k < 8 → v.getLsbD k = true → m.getLsbD k = false := by
  rw [bitTest, bne_eq_false_iff_eq, BitVec.ofNat_eq_ofNat, BitVec.eq_of_getLsbD_eq_iff]
  simp only [BitVec.getLsbD_and, BitVec.getLsbD_zero, Bool.and_eq_false_imp]

/-- The bit test succeeds where the value and the mask share any one set bit (R93). -/
theorem bitTest_eq_true_iff {v m : Byte} :
    bitTest v m = true ↔ ∃ k, k < 8 ∧ v.getLsbD k = true ∧ m.getLsbD k = true := by
  rw [← Bool.not_eq_false, bitTest_eq_false_iff]
  simp only [not_forall, Bool.not_eq_false, exists_prop]

/-- The test under the mask of plane `j` reads bit `7 - j` (R94). -/
theorem bitTest_planeMask (c : Config) {j : Nat} (hj : j < c.bitDepth) (v : Byte) :
    bitTest v (planeMask c j) = v.getLsbD (7 - j) := by
  rw [Bool.eq_iff_iff, bitTest_eq_true_iff, planeMask_eq c hj, ofNat_one_shiftLeft]
  simp only [BitVec.getLsbD_twoPow, Bool.and_eq_true, decide_eq_true_eq]
  constructor
  · rintro ⟨k, -, hv, -, rfl⟩
    exact hv
  · intro hv
    exact ⟨7 - j, by omega, hv, by omega, rfl⟩

/-- Settles O14: the AND with the mask is the bit test, which reads one bit under the mask of a plane. -/
theorem planeTestIsOneBit : Obligations.PlaneTestIsOneBit := by
  intro c j v hj
  rw [← bitTest_planeMask c hj v, bitTest, bne_iff_ne]

/-! ### BITX -/

/-- Outside the fault state BITX writes the outcome of the test (R93). -/
theorem exec_bitx_of_running {s : State} (h : s.flt = false) (v m : Byte) :
    exec (.bitx v m) s = .next (s.writeResult (if bitTest v m then 1 else 0)) :=
  whenRunning_of_running _ h

/-- Settles O27: the result is 1 or 0 as the test finds a shared bit or none. -/
theorem bitxResult : Obligations.BitxResult := by
  refine fun v m s => ⟨exec_of_flt _, fun hrun => ⟨_, exec_bitx_of_running hrun v m, State.rv_writeResult s _,
    State.readStatus_writeResult s _, resultFrame_writeResult _ s, fun hshared => ?_, fun hdisjoint => ?_⟩⟩
  · rw [State.readRes_writeResult, bitTest_eq_true_iff.mpr hshared]
    rfl
  · rw [State.readRes_writeResult, bitTest_eq_false_iff.mpr hdisjoint]
    rfl

/-! ### PMASK -/

/-- Outside the fault state PMASK writes the mask of a plane of the block (R92). -/
theorem exec_pmask_of_plane {s : State} (h : s.flt = false) {j : BitVec 3} (hj : j.toNat < s.cfg.bitDepth) :
    exec (.pmask j) s = .next (s.writeResult (planeMask s.cfg j.toNat)) :=
  (whenRunning_of_running _ h).trans (if_pos (decide_eq_true hj))

/-- Outside the fault state PMASK raises IllegalOperand past the last plane (R92). -/
theorem exec_pmask_past_depth {s : State} (h : s.flt = false) {j : BitVec 3} (hj : s.cfg.bitDepth ≤ j.toNat) :
    exec (.pmask j) s = .next (s.raise .illegalOperand (encode (.pmask j))) :=
  (whenRunning_of_running _ h).trans (if_neg (by simpa [planeInRange] using hj))

/-- The entry of the mask table for a plane of the block. -/
theorem getElem?_maskTable {c : Config} {j : Nat} (hj : j < c.bitDepth) : (maskTable c)[j]? = some (planeMask c j) := by
  simp [planeMask, maskTable, maskSequence, hj]

/-- Settles O28: for a plane of the block the result is its entry of the mask table, and past the last plane there is fault
entry. -/
theorem pmaskResult : Obligations.PmaskResult := by
  refine fun j s => ⟨exec_of_flt _, fun hrun hj => ?_, fun hrun hj => ?_⟩
  · have hres := State.readRes_writeResult s (planeMask s.cfg j.toNat)
    refine ⟨_, exec_pmask_of_plane hrun hj, ?_, (getElem?_maskTable hj).trans hres.symm, State.rv_writeResult s _,
      State.readStatus_writeResult s _, resultFrame_writeResult _ s⟩
    rw [hres, planeMask_eq s.cfg hj, Nat.one_shiftLeft]
  · exact ⟨_, exec_pmask_past_depth hrun hj, faultEntered_raise _ _ s⟩

end Sys2Proof.Machine
end

section
/-! PROOFS. What of FB reaches an encoded frame (spec/41_bitplane.md R95): each position reads two cells, and of the corrected
channels of their pixels the bits of the planes alone. -/

namespace Sys2Proof.Machine

/-- Two bytes are alike in bits 7 to 2. -/
def HighBitsAlike (v u : Byte) : Prop := v.extractLsb' 2 6 = u.extractLsb' 2 6

/-- The corrected channels of two pixels are alike in bits 7 to 2. -/
def PixelsAlike (c : Config) (p q : Pixel) : Prop :=
  HighBitsAlike (correct c p.r) (correct c q.r) ∧ HighBitsAlike (correct c p.g) (correct c q.g) ∧
    HighBitsAlike (correct c p.b) (correct c q.b)

/-- What two frame buffers hold in a cell: no pixel in both, or alike pixels. -/
def CellsAlike (c : Config) (a b : Option Pixel) : Prop :=
  (a = none ∧ b = none) ∨ ∃ p q, a = some p ∧ b = some q ∧ PixelsAlike c p q

theorem HighBitsAlike.getLsbD_eq {v u : Byte} (h : HighBitsAlike v u) {k : Nat} (hlow : 2 ≤ k) (hhigh : k < 8) :
    v.getLsbD k = u.getLsbD k := by
  have hbit := congrArg (fun b => b.getLsbD (k - 2)) h
  have hk : 2 + (k - 2) = k := by omega
  simpa [BitVec.getLsbD_extractLsb', hk, show k - 2 < 6 by omega] using hbit

/-- A lane reads one bit of its corrected channel, which at depth 6 is one of bits 7 to 2. -/
theorem lane_eq_of_highBitsAlike {c : Config} (hdepth : c.bitDepth = 6) {j : Nat} (hj : j < c.bitDepth) {v u : Byte}
    (h : HighBitsAlike (correct c v) (correct c u)) (bit : Byte) :
    lane c (planeMask c j) v bit = lane c (planeMask c j) u bit := by
  rw [lane, lane, bitTest_planeMask c hj, bitTest_planeMask c hj, h.getLsbD_eq (by omega) (by omega)]

theorem packByte_eq_of_pixelsAlike {c : Config} (hdepth : c.bitDepth = 6) {j : Nat} (hj : j < c.bitDepth)
    {a a' b b' : Pixel} (ha : PixelsAlike c a a') (hb : PixelsAlike c b b') :
    packByte c (planeMask c j) a b = packByte c (planeMask c j) a' b' := by
  obtain ⟨har, hag, hab⟩ := ha
  obtain ⟨hbr, hbg, hbb⟩ := hb
  simp only [packByte, lane_eq_of_highBitsAlike hdepth hj har, lane_eq_of_highBitsAlike hdepth hj hag,
    lane_eq_of_highBitsAlike hdepth hj hab, lane_eq_of_highBitsAlike hdepth hj hbr,
    lane_eq_of_highBitsAlike hdepth hj hbg, lane_eq_of_highBitsAlike hdepth hj hbb]

/-- A position answers alike from alike cells: the same byte, or the same unwritten cell. -/
theorem packAt_eq_of_cellsAlike {c : Config} (hdepth : c.bitDepth = 6) {fb fb' : Memory} {p : Position}
    (hj : p.j < c.bitDepth) (htop : CellsAlike c (fb.read ⟨p.x, p.y⟩) (fb'.read ⟨p.x, p.y⟩))
    (hbottom : CellsAlike c (fb.read ⟨p.x, p.y + c.half⟩) (fb'.read ⟨p.x, p.y + c.half⟩)) :
    packAt c fb p = packAt c fb' p := by
  rcases htop with ⟨ha, ha'⟩ | ⟨a, a', ha, ha', htop⟩
  · simp only [packAt, ha, ha']
  · rcases hbottom with ⟨hb, hb'⟩ | ⟨b, b', hb, hb', hbottom⟩
    · simp only [packAt, ha, ha', hb, hb']
    · simp only [packAt, ha, ha', hb, hb', packByte_eq_of_pixelsAlike hdepth hj htop hbottom]

/-- Packing depends on FB by what each position answers. -/
theorem packAll_congr {c : Config} {fb fb' : Memory} {ps : List Position}
    (h : ∀ p ∈ ps, packAt c fb p = packAt c fb' p) : packAll c fb ps = packAll c fb' ps := by
  induction ps with
  | nil => rfl
  | cons p rest ih =>
    obtain ⟨hp, hrest⟩ := List.forall_mem_cons.mp h
    rw [packAll, packAll, hp, ih hrest]

/-- Settles O43: every position of the frame reads two cells of the frame, and answers alike from alike cells. -/
theorem lowBitsNeverReachTheFrame : Obligations.LowBitsNeverReachTheFrame := by
  intro c w fb fb' hdepth hcells
  replace hcells : ∀ x y, x < w → y < 32 → CellsAlike c (fb.read ⟨x, y⟩) (fb'.read ⟨x, y⟩) := hcells
  refine packAll_congr fun p hp => ?_
  obtain ⟨hj, hy, hx⟩ := mem_frameOrder.mp hp
  refine packAt_eq_of_cellsAlike hdepth hj (hcells p.x p.y hx (by omega)) (hcells p.x (p.y + c.half) hx ?_)
  rw [Config.half_eq]
  omega

end Sys2Proof.Machine
end

section
/-! PROOFS. The pixel packer (spec/42_pixel_packer.md R100 to R107): a packed byte is the OR of the three lanes of the top pixel
and the three of the bottom pixel, and a lane holds its own bit or nothing. -/

namespace Sys2Proof.Machine

/-! ### One lane -/

/-- A lane sets the bits of its constant where its corrected channel meets the mask (R100). -/
theorem getLsbD_lane (c : Config) (m channel bit : Byte) (k : Nat) :
    (lane c m channel bit).getLsbD k = (bitTest (correct c channel) m && bit.getLsbD k) := by
  unfold lane
  cases bitTest (correct c channel) m <;> simp

/-- A channel of raw value 0 contributes 0 (R107). -/
theorem lane_of_channel_zero (c : Config) (m bit : Byte) : lane c m 0 bit = 0 := by
  have htest : bitTest (correct c 0) m = false := by rw [correct_zero, bitTest_eq_false_iff]; simp
  rw [lane, htest]
  rfl

/-- The mask 0 clears every lane (R106). -/
theorem lane_of_mask_zero (c : Config) (channel bit : Byte) : lane c 0 channel bit = 0 := by
  have htest : bitTest (correct c channel) 0 = false := by rw [bitTest_eq_false_iff]; simp
  rw [lane, htest]
  rfl

/-- A channel of raw value 255 contributes its bit for every mask that is not 0 (R107). -/
theorem lane_of_channel_max (c : Config) {m : Byte} (hm : m ≠ 0) (bit : Byte) : lane c m 255 bit = bit := by
  have hmeet : correct c 255 &&& m = m := by
    rw [correct_max]
    exact BitVec.allOnes_and
  rw [lane, bitTest, hmeet, if_pos (bne_iff_ne.mpr hm)]

/-! ### The two halves of a packed byte -/

/-- The lanes of the top pixel: bits 4, 6 and 7 (R101). -/
def topLanes (c : Config) (m : Byte) (p : Pixel) : Byte :=
  lane c m p.r 0x10 ||| lane c m p.g 0x40 ||| lane c m p.b 0x80

/-- The lanes of the bottom pixel: bits 0, 1 and 3 (R101). -/
def bottomLanes (c : Config) (m : Byte) (p : Pixel) : Byte :=
  lane c m p.r 0x01 ||| lane c m p.g 0x02 ||| lane c m p.b 0x08

/-- A packed byte is the OR of the lanes of its two pixels (R105). -/
theorem packByte_eq_topLanes_or_bottomLanes (c : Config) (m : Byte) (a b : Pixel) :
    packByte c m a b = topLanes c m a ||| bottomLanes c m b := by
  simp only [packByte, topLanes, bottomLanes, BitVec.or_assoc]

theorem topLanes_black (c : Config) (m : Byte) : topLanes c m ⟨0, 0, 0⟩ = 0 := by
  simp only [topLanes, lane_of_channel_zero]
  rfl

theorem bottomLanes_black (c : Config) (m : Byte) : bottomLanes c m ⟨0, 0, 0⟩ = 0 := by
  simp only [bottomLanes, lane_of_channel_zero]
  rfl

theorem topLanes_white (c : Config) {m : Byte} (hm : m ≠ 0) : topLanes c m ⟨255, 255, 255⟩ = 0xD0 := by
  simp only [topLanes, lane_of_channel_max c hm]
  rfl

theorem bottomLanes_white (c : Config) {m : Byte} (hm : m ≠ 0) : bottomLanes c m ⟨255, 255, 255⟩ = 0x0B := by
  simp only [bottomLanes, lane_of_channel_max c hm]
  rfl

/-- The top pixel drives bits 7, 6 and 4 alone (R105). -/
theorem topLanes_and_other_bits (c : Config) (m : Byte) (p : Pixel) : topLanes c m p &&& 0x2F = 0 := by
  simp [topLanes, BitVec.and_or_distrib_right, lane_and]

/-- The bottom pixel drives bits 3, 1 and 0 alone (R105). -/
theorem bottomLanes_and_other_bits (c : Config) (m : Byte) (p : Pixel) : bottomLanes c m p &&& 0xF4 = 0 := by
  simp [bottomLanes, BitVec.and_or_distrib_right, lane_and]

/-- Over a black bottom pixel the byte is the top pixel's. -/
theorem packByte_black_bottom (c : Config) (m : Byte) (a : Pixel) : packByte c m a ⟨0, 0, 0⟩ = topLanes c m a := by
  rw [packByte_eq_topLanes_or_bottomLanes, bottomLanes_black]
  exact BitVec.or_zero

/-- Under a black top pixel the byte is the bottom pixel's. -/
theorem packByte_black_top (c : Config) (m : Byte) (b : Pixel) : packByte c m ⟨0, 0, 0⟩ b = bottomLanes c m b := by
  rw [packByte_eq_topLanes_or_bottomLanes, topLanes_black]
  exact BitVec.zero_or

/-- Settles O31: a pixel packed with black leaves its own lanes alone, and each pixel's lanes keep to their bits. -/
theorem packHalvesAreIndependent : Obligations.PackHalvesAreIndependent := by
  intro c m a b
  rw [packByte_black_bottom, packByte_black_top]
  exact ⟨packByte_eq_topLanes_or_bottomLanes c m a b, topLanes_and_other_bits c m a, bottomLanes_and_other_bits c m b⟩

/-! ### The corner bytes -/

theorem packByte_black_black (c : Config) (m : Byte) : packByte c m ⟨0, 0, 0⟩ ⟨0, 0, 0⟩ = 0x00 := by
  rw [packByte_black_bottom, topLanes_black]

theorem packByte_white_white (c : Config) {m : Byte} (hm : m ≠ 0) :
    packByte c m ⟨255, 255, 255⟩ ⟨255, 255, 255⟩ = 0xDB := by
  rw [packByte_eq_topLanes_or_bottomLanes, topLanes_white c hm, bottomLanes_white c hm]
  rfl

theorem packByte_of_mask_zero (c : Config) (a b : Pixel) : packByte c 0 a b = 0x00 := by
  simp only [packByte, lane_of_mask_zero]
  rfl

/-- The mask of a plane is not 0: it is a power of two below 2^8 (R91). -/
theorem ne_zero_of_mem_maskTable {c : Config} {m : Byte} (hm : m ∈ maskTable c) : m ≠ 0 := by
  rw [maskTable, maskSequence_eq_map_twoPow c.bitDepth_ok.2] at hm
  obtain ⟨j, -, rfl⟩ := List.mem_map.mp hm
  intro hzero
  have hnat := congrArg BitVec.toNat hzero
  rw [BitVec.toNat_twoPow_of_lt (by omega)] at hnat
  exact (Nat.two_pow_pos (7 - j)).ne' hnat

/-- Settles O32: the corner values of GAMMA fix each lane, and the mask of a plane is not 0. -/
theorem packCornerBytes : Obligations.PackCornerBytes := by
  refine fun c => ⟨fun m hm => ?_, fun m bit => ⟨lane_of_channel_zero c m bit, fun hm => lane_of_channel_max c hm bit⟩,
    fun m => ⟨packByte_black_black c m, packByte_white_white c⟩, packByte_of_mask_zero c⟩
  have hne := ne_zero_of_mem_maskTable hm
  exact ⟨packByte_black_black c m, packByte_white_white c hne, (packByte_black_top c m _).trans (bottomLanes_white c hne)⟩

/-! ### The unused bits -/

/-- A value with none of the bits of `k` is at most the complement of `k`. -/
theorem le_not_of_and_eq_zero {width : Nat} {v k : BitVec width} (h : v &&& k = 0) : v ≤ ~~~k := by
  have hv : v = v &&& ~~~k := by
    calc v = v &&& (k ||| ~~~k) := by rw [BitVec.or_not_self, BitVec.and_allOnes]
      _ = v &&& ~~~k := by rw [BitVec.and_or_distrib_left, h, BitVec.ofNat_eq_ofNat, BitVec.zero_or]
  rw [hv, BitVec.le_def, BitVec.toNat_and]
  exact Nat.and_le_right

/-- A byte with bits 5 and 2 clear is at most 0xDB (R103). -/
theorem le_of_and_unused {byte : Byte} (h : byte &&& 0x24 = 0) : byte ≤ 0xDB := le_not_of_and_eq_zero h

/-- Settles O30: no lane has bit 5 or 2, so neither a packed byte nor a byte of a frame does, and that bounds the byte. -/
theorem outputBits5And2AreZero : Obligations.OutputBits5And2AreZero := by
  refine ⟨fun c m a b => ?_, fun c w fb out hout byte hbyte => ?_⟩
  · have hunused := packByte_and_unused c m a b
    exact ⟨hunused, le_of_and_unused hunused⟩
  · have hunused := layoutBytes_encodeFrame hout byte hbyte
    exact ⟨hunused, le_of_and_unused hunused⟩

/-! ### PACK -/

/-- Each bit of a packed byte, lane by lane (R101). -/
theorem getLsbD_packByte (c : Config) (m : Byte) (a b : Pixel) :
    (packByte c m a b).getLsbD 4 = bitTest (correct c a.r) m ∧
    (packByte c m a b).getLsbD 6 = bitTest (correct c a.g) m ∧
    (packByte c m a b).getLsbD 7 = bitTest (correct c a.b) m ∧
    (packByte c m a b).getLsbD 0 = bitTest (correct c b.r) m ∧
    (packByte c m a b).getLsbD 1 = bitTest (correct c b.g) m ∧
    (packByte c m a b).getLsbD 3 = bitTest (correct c b.b) m ∧
    (packByte c m a b).getLsbD 5 = false ∧ (packByte c m a b).getLsbD 2 = false := by
  simp only [packByte, BitVec.getLsbD_or, getLsbD_lane]
  simp

/-- Outside the fault state PACK writes the packed byte (R102). -/
theorem exec_pack_of_running {s : State} (h : s.flt = false) (m : Byte) (a b : Pixel) :
    exec (.pack m a b) s = .next (s.writeResult (packByte s.cfg m a b)) :=
  whenRunning_of_running _ h

/-- Settles O29: PACK writes the packed byte as a result, and each bit of the byte is the test of its lane. -/
theorem packResult : Obligations.PackResult := by
  refine fun m a b s => ⟨exec_of_flt _, fun hrun => ⟨_, _, exec_pack_of_running hrun m a b, State.readRes_writeResult s _,
    State.rv_writeResult s _, State.readStatus_writeResult s _, resultFrame_writeResult _ s, ?_⟩⟩
  obtain ⟨htopR, htopG, htopB, hbotR, hbotG, hbotB, hbit5, hbit2⟩ := getLsbD_packByte s.cfg m a b
  simp only [htopR, htopG, htopB, hbotR, hbotG, hbotB, hbit5, hbit2, bitTest, bne_iff_ne, and_self]

end Sys2Proof.Machine
end

section
/-! PROOFS. FBWR, ENCF, COMMIT and ABORT, one command at a time (spec/43_frame_sequencer.md R115 to R119, R123 to R126). -/

namespace Sys2Proof.Machine

/-! ### FBWR -/

/-- Outside the fault state FBWR writes its pixel to a cell of FB (R115). -/
theorem exec_fbwr_of_cell {s : State} (h : s.flt = false) {x : BitVec 16} {y : Byte} (hx : x.toNat < s.cfg.maxWidth)
    (hy : y.toNat < s.cfg.panelHeight) (p : Pixel) :
    exec (.fbwr x y p) s = .next (s.writePixel ⟨x.toNat, y.toNat⟩ p) :=
  (whenRunning_of_running _ h).trans (if_pos (by simp [coordInRange, hx, hy]))

/-- Outside the fault state FBWR raises IllegalOperand where FB has no such cell (R115). -/
theorem exec_fbwr_outside {s : State} (h : s.flt = false) {x : BitVec 16} {y : Byte}
    (hxy : s.cfg.maxWidth ≤ x.toNat ∨ s.cfg.panelHeight ≤ y.toNat) (p : Pixel) :
    exec (.fbwr x y p) s = .next (s.raise .illegalOperand (encode (.fbwr x y p))) :=
  (whenRunning_of_running _ h).trans (if_neg (by simpa [coordInRange, imp_iff_not_or] using hxy))

/-- Settles O33: FBWR is one write of its cell, or the fault entry, as the cell lies in FB or outside. -/
theorem fbwrResult : Obligations.FbwrResult := by
  intro x y p s
  have hheight := s.cfg.panelHeight_ok
  refine ⟨exec_of_flt _, fun hrun hx hy => ?_, fun hrun hxy => ?_⟩
  · exact ⟨_, exec_fbwr_of_cell hrun hx (hheight ▸ hy) p, rfl, Memory.read_write_same s.fb _ p,
      fun _ hother => Memory.read_write_other s.fb p hother⟩
  · exact ⟨_, exec_fbwr_outside hrun (hheight ▸ hxy) p, faultEntered_raise _ _ s⟩

/-! ### ENCF -/

/-- At the cap ENCF has no effect (R117). -/
theorem exec_encf_at_cap {s : State} (hcap : s.cfg.frameCap ≤ s.frames.toNat) (h w : BitVec 16) :
    exec (.encf h w) s = .next s := by
  cases hrun : s.flt with
  | true => exact exec_of_flt _ hrun
  | false => exact (whenRunning_of_running _ hrun).trans (if_pos hcap)

/-- Below the cap ENCF raises FrameDimensionError for a height that is not the panel's (R118). -/
theorem exec_encf_of_other_height {s : State} (hrun : s.flt = false) (hcap : s.frames.toNat < s.cfg.frameCap)
    {h : BitVec 16} (hheight : h ≠ 32) (w : BitVec 16) :
    exec (.encf h w) s = .next (s.raise .frameDimensionError (encode (.encf h w))) := by
  have hrefused : heightAccepted s.cfg h = false := by
    simpa [heightAccepted, s.cfg.panelHeight_ok, BitVec.toNat_eq] using hheight
  show whenRunning s _ = _
  rw [whenRunning_of_running _ hrun, if_neg (Nat.not_le.mpr hcap), hrefused]
  rfl

/-- Below the cap ENCF of the panel's height raises IllegalOperand for a width that FB cannot hold (R119). -/
theorem exec_encf_past_width {s : State} (hrun : s.flt = false) (hcap : s.frames.toNat < s.cfg.frameCap)
    {w : BitVec 16} (hw : s.cfg.maxWidth < w.toNat) :
    exec (.encf 32 w) s = .next (s.raise .illegalOperand (encode (.encf 32 w))) := by
  have hheight : heightAccepted s.cfg 32 = true := by simp [heightAccepted, s.cfg.panelHeight_ok]
  have hrefused : widthAccepted s.cfg w = false := by simpa [widthAccepted] using hw
  show whenRunning s _ = _
  rw [whenRunning_of_running _ hrun, if_neg (Nat.not_le.mpr hcap), hheight, hrefused]
  rfl

/-- ENCF past its checks appends the bytes of a frame that encodes (R116). -/
theorem exec_encf_of_encodes {s : State} (hrun : s.flt = false) (hcap : s.frames.toNat < s.cfg.frameCap)
    {w : BitVec 16} (hw : w.toNat ≤ s.cfg.maxWidth) {out : List Byte}
    (hout : encodeFrame s.cfg w.toNat s.fb = .ok out) : exec (.encf 32 w) s = .next (s.appendFrame out) := by
  rw [exec_encf_of_accepted hrun hcap hw, hout]

/-- A frame of width 0 has no bytes, whatever FB holds (R124). -/
theorem encodeFrame_zero (c : Config) (fb : Memory) : encodeFrame c 0 fb = .ok [] := by
  have hempty : frameOrder c 0 = [] := List.eq_nil_of_length_eq_zero (length_frameOrder c 0)
  rw [encodeFrame, hempty, packAll]

/-- Settles O35: a complete frame encodes, and its bytes are appended. -/
theorem encfEncodesACompleteFrame : Obligations.EncfEncodesACompleteFrame := by
  intro w s hrun hcap hw hcomplete
  obtain ⟨out, hout⟩ := encodeFrame_of_complete hcomplete
  exact ⟨out, _, exec_encf_of_encodes hrun hcap hw hout, hout, rfl, toNat_frames_succ hcap⟩

/-- Settles O38: past the cap nothing is checked and no pixel read. -/
theorem encfPastTheCapHasNoEffect : Obligations.EncfPastTheCapHasNoEffect :=
  fun h w _ hcap => exec_encf_at_cap hcap h w

/-- Settles O39: the height check comes before the width check and the pixel reads. -/
theorem encfHeightCheck : Obligations.EncfHeightCheck :=
  fun _ w s hrun hcap hheight => ⟨_, exec_encf_of_other_height hrun hcap hheight w, faultEntered_raise _ _ s⟩

/-- Settles O40: the width check comes before the pixel reads. -/
theorem encfWidthCheck : Obligations.EncfWidthCheck :=
  fun _ s hrun hcap hw => ⟨_, exec_encf_past_width hrun hcap hw, faultEntered_raise _ _ s⟩

/-- Settles O42: what is appended is the empty list. -/
theorem encfOfWidthZero : Obligations.EncfOfWidthZero := by
  intro s hrun hcap
  refine ⟨_, exec_encf_of_encodes hrun hcap (Nat.zero_le _) (encodeFrame_zero s.cfg s.fb), ?_, toNat_frames_succ hcap⟩
  simp [State.appendFrame]

/-! ### COMMIT and ABORT -/

/-- Settles O44: COMMIT is one delivery of ACC. -/
theorem commitDelivers : Obligations.CommitDelivers :=
  fun _ => ⟨exec_of_flt _, whenRunning_of_running _⟩

/-- The word of ABORT (R67). -/
theorem encode_abort : encode .abort = 0x7000000000000000 := by decide

/-- Settles O45: ABORT is the fault entry on its one word. -/
theorem abortRaisesSourceReadError : Obligations.AbortRaisesSourceReadError :=
  fun s => ⟨exec_of_flt _, fun hrun =>
    ⟨_, whenRunning_of_running _ hrun, encode_abort ▸ faultEntered_raise .sourceReadError (encode .abort) s⟩⟩

end Sys2Proof.Machine
end

section
/-! PROOFS. Where each byte of an encoded frame stands (spec/43_frame_sequencer.md R120, R122). -/

namespace Sys2Proof.Machine

/-- The byte of a position of a frame: its offset, the cells it is packed from and its value. -/
theorem getElem?_encodeFrame {c : Config} {w : Nat} {fb : Memory} {out : List Byte} (h : encodeFrame c w fb = .ok out)
    {j y x : Nat} (hj : j < c.bitDepth) (hy : y < 16) (hx : x < w) :
    ∃ a b, fb.read ⟨x, y⟩ = some a ∧ fb.read ⟨x, y + 16⟩ = some b ∧
      out[(j * 16 + y) * w + x]? = some (packByte c (BitVec.ofNat 8 (1 <<< (7 - j))) a b) := by
  have hpacked := congrArg (fun l => l[(j * 16 + y) * w + x]?) (packAll_eq_ok.mp h)
  simp only [List.getElem?_map, getElem?_frameOrder c w hj hy hx, Option.map_some] at hpacked
  obtain ⟨byte, hbyte, hpack⟩ := Option.map_eq_some_iff.mp hpacked.symm
  obtain ⟨a, b, ha, hb, rfl⟩ := packAt_eq_ok.mp hpack.symm
  rw [Config.half_eq] at hb
  rw [planeMask_eq c hj] at hbyte
  exact ⟨a, b, ha, hb, hbyte⟩

/-- The position of an offset: its plane, row-pair and column, and the offset put together from them. -/
theorem position_of_offset {d w k : Nat} (hk : k < d * 16 * w) :
    k / (16 * w) < d ∧ k % w < w ∧ (k / (16 * w) * 16 + k / w % 16) * w + k % w = k := by
  have hw : 0 < w := Nat.pos_of_ne_zero fun h => by simp [h] at hk
  refine ⟨Nat.div_lt_of_lt_mul (by linarith), Nat.mod_lt k hw, ?_⟩
  have hplane : k / (16 * w) = k / w / 16 := by rw [Nat.div_div_eq_div_mul, Nat.mul_comm]
  rw [hplane, Nat.div_add_mod', Nat.div_add_mod']

/-- Settles O36: the byte of each position stands at its offset, and each offset is that of its position. -/
theorem frameBytesInHardwareOrder : Obligations.FrameBytesInHardwareOrder := by
  refine fun c w fb out h => ⟨fun j y x hj hy hx => getElem?_encodeFrame h hj hy hx, fun k hk => ?_⟩
  rw [length_encodeFrame h] at hk
  obtain ⟨hj, hx, hoffset⟩ := position_of_offset hk
  have hbyte := getElem?_encodeFrame h hj (Nat.mod_lt (k / w) (by decide)) hx
  rwa [hoffset] at hbyte

end Sys2Proof.Machine
end

section
/-! PROOFS. The laws of a run of commands (spec/43_frame_sequencer.md R121, R128 to R130). -/

namespace Sys2Proof.Machine

/-! ### Runs without a fault -/

/-- In a run that raises no fault every command is ready where it stands. -/
theorem cleanRun_of_execAll {cs : List Instr} {s t : State} (h : execAll cs s = .next t) (ht : t.flt = false) :
    CleanRun s.cfg cs s.frames.toNat s.fb := by
  induction cs generalizing s with
  | nil => trivial
  | cons i cs ih =>
    obtain ⟨hrun, u, hx, hu, hrest⟩ := execAll_cons_without_fault h ht
    obtain ⟨⟨hready, hfb, hframes, -, hcfg, -⟩, -⟩ := exec_without_fault hx hrun hu
    have hclean := ih hrest
    rw [hcfg, hframes, hfb] at hclean
    exact ⟨hready, hclean⟩

/-- Settles O52: both directions by induction on the commands, each in the state that the commands before it leave. -/
theorem cleanRunIffNoFault : Obligations.CleanRunIffNoFault :=
  fun _ _ hrun => ⟨execAll_of_cleanRun hrun, fun ⟨_, h, ht⟩ => cleanRun_of_execAll h ht⟩

/-- A run that raises no fault leaves FINFO, the configuration and what the host has still to do alone. -/
theorem execAll_keeps_finfo_cfg_hostIn {cs : List Instr} {s t : State} (h : execAll cs s = .next t)
    (ht : t.flt = false) : t.finfo = s.finfo ∧ t.cfg = s.cfg ∧ t.hostIn = s.hostIn := by
  induction cs generalizing s with
  | nil => cases h; exact ⟨rfl, rfl, rfl⟩
  | cons i cs ih =>
    obtain ⟨hrun, u, hx, hu, hrest⟩ := execAll_cons_without_fault h ht
    obtain ⟨⟨-, -, -, hfinfo, hcfg, hhost⟩, -⟩ := exec_without_fault hx hrun hu
    obtain ⟨tfinfo, tcfg, thost⟩ := ih hrest
    exact ⟨tfinfo.trans hfinfo, tcfg.trans hcfg, thost.trans hhost⟩

/-- ENCFs alone, where they raise no fault, change nothing but ACC and FRAMES (R116, R117). -/
theorem execAll_of_only_encf {cs : List Instr} {s t : State} (h : execAll cs s = .next t) (ht : t.flt = false)
    (hencf : ∀ i ∈ cs, encfWidth i ≠ none) : t = { s with acc := t.acc, frames := t.frames } := by
  induction cs generalizing s with
  | nil => cases h; rfl
  | cons i cs ih =>
    obtain ⟨hrun, u, hx, hu, hrest⟩ := execAll_cons_without_fault h ht
    obtain ⟨hi, hcs⟩ := List.forall_mem_cons.mp hencf
    have hsame := ih hrest hcs
    rcases (exec_without_fault hx hrun hu).2 with ⟨hh, w, out, rfl, -, -, rfl⟩ | ⟨hh, w, rfl, -, rfl⟩ | ⟨rfl, -⟩ |
      ⟨hnone, -⟩
    · exact hsame
    · exact hsame
    · exact absurd rfl hi
    · exact absurd hnone hi

/-! ### The cap -/

/-- The widths of the frames issued are those the ENCFs ask for. -/
theorem map_fst_issuedFrames (cs : List Instr) (fb : Memory) :
    (issuedFrames cs fb).map Prod.fst = cs.filterMap encfWidth := by
  induction cs generalizing fb with
  | nil => rfl
  | cons i cs ih =>
    cases hw : encfWidth i with
    | none => rw [issuedFrames_cons_of_none hw, List.filterMap_cons_none hw, ih]
    | some w => rw [issuedFrames, hw, List.filterMap_cons_some hw, List.map_cons, ih]

/-- FRAMES after a run that begins at FRAMES 0: the frames issued, up to the cap (R26, R128). -/
theorem execAll_frames_eq_min {cs : List Instr} {s t : State} (h : execAll cs s = .next t) (ht : t.flt = false)
    (hcommit : .commit ∉ cs) (hframes : s.frames = 0) :
    t.frames.toNat = min (issuedFrames cs s.fb).length s.cfg.frameCap := by
  obtain ⟨-, -, tframes⟩ := execAll_acc_frames h ht hcommit
  rw [tframes, hframes, encodedWidths, List.length_take, ← map_fst_issuedFrames cs s.fb, List.length_map, Nat.min_comm]
  simp

/-- A command that has no effect where it stands can be left out of a run. -/
theorem execAll_append_cons_of_no_effect {cs : List Instr} {s u : State} {i : Instr} (h : execAll cs s = .next u)
    (hi : exec i u = .next u) (after : List Instr) : execAll (cs ++ i :: after) s = execAll (cs ++ after) s := by
  simp only [execAll_append, h, execAll, hi]

/-- Settles O53: the run appends the frames below the cap, and past the cap, or in the fault state, an ENCF has no effect. -/
theorem frameCapLaw : Obligations.FrameCapLaw := by
  intro cs s hrun hframes hcommit
  refine ⟨fun hclean => execAll_of_cleanRun hrun (by rwa [hframes]), fun t h ht => ?_, fun u h w after hu hissued => ?_⟩
  · obtain ⟨tsink, tfb, outs, houts, tacc⟩ := execAll_appends_encodedFrames h ht hcommit
    obtain ⟨tfinfo, tcfg, thost⟩ := execAll_keeps_finfo_cfg_hostIn h ht
    have hencoded : encodedFrames s.cfg s.frames.toNat cs s.fb = (issuedFrames cs s.fb).take s.cfg.frameCap := by
      simp [encodedFrames, hframes]
    rw [hencoded] at houts
    exact ⟨⟨outs, houts, tacc⟩, execAll_frames_eq_min h ht hcommit hframes, tfb, tsink, tfinfo, tcfg, thost,
      execAll_of_only_encf h ht⟩
  · refine execAll_append_cons_of_no_effect hu ?_ after
    cases hflt : u.flt with
    | true => exact exec_of_flt _ hflt
    | false =>
      have hcap : u.frames.toNat = s.cfg.frameCap := by
        rw [execAll_frames_eq_min hu hflt hcommit hframes, Nat.min_eq_right hissued]
      obtain ⟨-, hcfg, -⟩ := execAll_keeps_finfo_cfg_hostIn hu hflt
      exact exec_encf_at_cap (by rw [hcfg, hcap]) h w

/-- Settles O37: ACC holds the bytes of the frames encoded, and widths that are all `w` sum to their number times `w`. -/
theorem frameLengthLaw : Obligations.FrameLengthLaw := by
  refine ⟨fun c w fb out h => ?_, fun cs w s ws hrun hacc hcommit hclean hws hw => ?_⟩
  · have hlength := length_encodeFrame h
    exact ⟨hlength, fun hdepth => by rw [hlength, hdepth]⟩
  · obtain ⟨u, hu, hurun⟩ := execAll_of_cleanRun hrun hclean
    obtain ⟨-, uacc, -⟩ := execAll_acc_frames hu hurun hcommit
    obtain ⟨usink, -⟩ := execAll_appends_encodedFrames hu hurun hcommit
    have hlength : u.acc.length = ws.length * s.cfg.bitDepth * 16 * w := by
      rw [uacc, hacc, encodedWidths, ← hws, List.sum_eq_card_nsmul ws w hw, List.length_nil, smul_eq_mul]
      ring
    refine ⟨u.deliver, u.acc, execAll_append_commit hu hurun, by rw [State.deliver_sink, usink], hlength, fun hdepth => ?_⟩
    rw [hlength, hdepth]

/-! ### A violation of the height -/

/-- Settles O55: the ENCF enters the fault state, which discards ACC and in which the commands after it have no effect. -/
theorem dimensionViolationLaw : Obligations.DimensionViolationLaw := by
  intro before after h w s u hu hcommit hurun hcap hheight
  have hfault := exec_encf_of_other_height hurun hcap hheight w
  have hflt := State.flt_raise u .frameDimensionError (encode (.encf h w))
  have hrun : execAll (before ++ .encf h w :: after) s =
      .next (u.raise .frameDimensionError (encode (.encf h w))) := by
    simp only [execAll_append, hu, execAll, hfault, execAll_of_flt after hflt]
  obtain ⟨usink, -⟩ := execAll_appends_encodedFrames hu hurun hcommit
  exact ⟨_, hrun, usink, rfl, hflt, State.cause_raise u _ _, rfl⟩

end Sys2Proof.Machine
end

section
/-! PROOFS. Elaboration (spec/60_exceptions.md R141): which parameter values make a configuration. -/

namespace Sys2Proof

/-- The other direction of `getD_le_getD_of_stepwiseMonotone`, from neighbours alone. -/
theorem stepwiseMonotone_of_getD_le_getD_succ :
    ∀ l : List Byte, (∀ v, v + 1 < l.length → (l.getD v 0).toNat ≤ (l.getD (v + 1) 0).toNat) →
      stepwiseMonotone l = true
  | [], _ => rfl
  | [_], _ => rfl
  | a :: b :: rest, h => by
    have hhead : a.toNat ≤ b.toNat := h 0 (by simp)
    have htail : stepwiseMonotone (b :: rest) = true :=
      stepwiseMonotone_of_getD_le_getD_succ (b :: rest) fun v hv => h (v + 1) (Nat.succ_lt_succ hv)
    simp [stepwiseMonotone, hhead, htail]

/-- The elaborator's check of a 256-entry table is P1 of R7, over the bytes as indices. -/
theorem stepwiseMonotone_iff {l : List Byte} (hlength : l.length = 256) :
    stepwiseMonotone l = true ↔ ∀ v w : Byte, v ≤ w → l.getD v.toNat 0 ≤ l.getD w.toNat 0 := by
  constructor
  · exact fun h v w hvw => getD_le_getD_of_stepwiseMonotone l h v.toNat w.toNat hvw (hlength ▸ w.isLt)
  · refine fun h => stepwiseMonotone_of_getD_le_getD_succ l fun v hv => ?_
    have hbyte := h (BitVec.ofNat 8 v) (BitVec.ofNat 8 (v + 1))
    rw [BitVec.le_def, BitVec.le_def, BitVec.toNat_ofNat, BitVec.toNat_ofNat, Nat.mod_eq_of_lt (by omega),
      Nat.mod_eq_of_lt (by omega)] at hbyte
    exact hbyte (Nat.le_succ v)

/-- A configuration that elaborates has the values given (R161). -/
theorem elaborate_values {raw : RawConfig} {c : Config} (h : elaborate raw = .ok c) :
    c.bitDepth = raw.bitDepth ∧ c.panelHeight = raw.panelHeight ∧ c.maxWidth = raw.maxWidth ∧
      c.frameCap = raw.frameCap ∧ c.gamma.entries = raw.gamma := by
  unfold elaborate at h
  split_ifs at h
  cases h
  exact ⟨rfl, rfl, rfl, rfl, rfl⟩

/-- R141's checks are all that elaboration asks for. -/
theorem elaborate_of_legal {raw : RawConfig} (hdepth : 1 ≤ raw.bitDepth ∧ raw.bitDepth ≤ 7)
    (hheight : raw.panelHeight = 32) (hwidth : 1 ≤ raw.maxWidth ∧ raw.maxWidth ≤ 65535) (hcap : raw.frameCap < 2 ^ 32)
    (hgamma : raw.gamma.length = 256 ∧ stepwiseMonotone raw.gamma = true ∧ raw.gamma.getD 0 0 = 0 ∧
      raw.gamma.getD 255 0 = 255) : ∃ c, elaborate raw = .ok c := by
  unfold elaborate
  rw [dif_neg (not_not.mpr hdepth), dif_neg (not_not.mpr hheight), dif_neg (not_not.mpr hwidth),
    dif_neg (not_not.mpr hcap), dif_pos hgamma]
  exact ⟨_, rfl⟩

/-- Settles O11: the checks are the conditions of R141, and a configuration carries their proofs, so one that violates a
condition cannot be answered. -/
theorem illFormedConfigurationRefused : Obligations.IllFormedConfigurationRefused := by
  intro raw
  split_ifs with hlegal
  · obtain ⟨hd1, hd7, hheight, hw1, hw, hcap, hlength, hmono, hzero, hmax⟩ := hlegal
    obtain ⟨c, hc⟩ := elaborate_of_legal ⟨hd1, hd7⟩ hheight ⟨hw1, hw⟩ (by omega)
      ⟨hlength, (stepwiseMonotone_iff hlength).mpr hmono, hzero, hmax⟩
    exact ⟨c, hc, elaborate_values hc⟩
  · cases hc : elaborate raw with
    | error why => exact ⟨why, rfl⟩
    | ok c =>
      obtain ⟨hdepth, hheight, hwidth, hcap, hgamma⟩ := elaborate_values hc
      have hcap' : raw.frameCap ≤ 2 ^ 32 - 1 := hcap ▸ Nat.le_pred_of_lt c.frameCap_ok
      have hmono : ∀ v w : Byte, v ≤ w → raw.gamma.getD v.toNat 0 ≤ raw.gamma.getD w.toNat 0 :=
        fun v w hvw => hgamma ▸ c.gamma.monotone v.toNat w.toNat hvw w.isLt
      exact absurd ⟨hdepth ▸ c.bitDepth_ok.1, hdepth ▸ c.bitDepth_ok.2, hheight ▸ c.panelHeight_ok, hwidth ▸ c.maxWidth_ok.1,
        hwidth ▸ c.maxWidth_ok.2, hcap', hgamma ▸ c.gamma.length_eq, hmono, hgamma ▸ c.gamma.at_zero,
        hgamma ▸ c.gamma.at_max⟩ hlegal

end Sys2Proof
end

section
/-! PROOFS. The idle block (spec/60_exceptions.md R158), the fault state (R149, R150) and its entry (R148). -/

namespace Sys2Proof.Machine

/-- Settles O21: the port gives no action. -/
theorem idleBlockHoldsItsState : Obligations.IdleBlockHoldsItsState := by
  intro s hidle
  simp [step, State.takeAction, hidle]

/-- In the fault state a word has no effect, whatever it decodes to (R149). -/
theorem execWord_of_flt {s : State} (h : s.flt = true) (w : CmdWord) : execWord w s = .next s := by
  cases hdec : decode w with
  | command i => exact (execWord_of_command hdec s).trans (exec_of_flt i h)
  | illegal why => exact (execWord_of_illegal hdec s).trans (whenRunning_of_flt _ h)

/-- In the fault state an issued word is taken from the port and does nothing else (R149). -/
theorem step_of_command_of_flt {s : State} {w : CmdWord} {rest : List HostAction} (hin : s.hostIn = .command w :: rest)
    (hflt : s.flt = true) : step s = .next { s with hostIn := rest } :=
  (step_of_command hin).trans (execWord_of_flt (s := { s with hostIn := rest }) hflt w)

/-- Settles O22: of the three things the port can give, no action and a word keep FLT, a reset clears it. -/
theorem faultStateIgnoresCommands : Obligations.FaultStateIgnoresCommands := by
  refine ⟨fun s w rest hin hflt => step_of_command_of_flt hin hflt, fun i s hflt => exec_of_flt i hflt, ?_,
    fun s rest hin => ⟨_, step_of_reset hin, State.flt_applyReset _⟩⟩
  intro s t hflt h hleft
  have hstays : s.flt ≠ t.flt := by simp [hflt, hleft]
  match hin : s.hostIn with
  | [] =>
    cases (idleBlockHoldsItsState s hin).symm.trans h
    exact absurd rfl hstays
  | .command w :: rest =>
    cases (step_of_command_of_flt hin hflt).symm.trans h
    exact absurd rfl hstays
  | .reset :: rest => exact ⟨rest, rfl⟩

/-- Settles O23, by the effects of a step: only a fault entry sets FLT. -/
theorem faultEntryWrites : Obligations.FaultEntryWrites := by
  refine ⟨faultEntered_raise, fun s t h hrun hflt => ?_⟩
  rcases step_effect h with rfl | ⟨rest, hin, rfl⟩ | ⟨w, rest, hin, he⟩
  · exact absurd (hrun.symm.trans hflt) Bool.false_ne_true
  · exact absurd ((State.flt_applyReset _).symm.trans hflt) Bool.false_ne_true
  · cases he with
    | fault f => exact ⟨f, w, rest, hin, faultEntered_raise f w _⟩
    | nothing | pixel | frame | deliver => exact absurd (hrun.symm.trans hflt) Bool.false_ne_true
    | result i v => exact absurd (hrun.symm.trans ((State.flt_writeResult _ v).symm.trans hflt)) Bool.false_ne_true

end Sys2Proof.Machine
end

section
/-! PROOFS. The one way in which the block stops (spec/60_exceptions.md R146, R147): an ENCF past its checks that meets a cell
without a value, and which cell that is. -/

namespace Sys2Proof.Machine

/-! ### The cell that a frame stops at -/

/-- A position of a frame stands at the offset of its byte (R122): the converse of `getElem?_frameOrder`. -/
theorem offset_of_getElem?_frameOrder {c : Config} {w k : Nat} {p : Position} (h : (frameOrder c w)[k]? = some p) :
    (p.j * 16 + p.y) * w + p.x = k := by
  obtain ⟨hk, -⟩ := List.getElem?_eq_some_iff.mp h
  rw [length_frameOrder] at hk
  obtain ⟨hj, hx, hoffset⟩ := position_of_offset hk
  have hp := getElem?_frameOrder c w hj (Nat.mod_lt (k / w) (by decide)) hx
  rw [hoffset, h] at hp
  obtain rfl := Option.some.inj hp
  exact hoffset

/-- In the order of a frame, the pairs of cells that come before a position in row and column order stand before it in the
position's own plane. -/
theorem mem_before_of_frameOrder {c : Config} {w : Nat} {before after : List Position} {p : Position}
    (h : frameOrder c w = before ++ p :: after) {x y : Nat} (hx : x < w) (hy : y < 16)
    (hfirst : y < p.y ∨ (y = p.y ∧ x < p.x)) : ⟨p.j, y, x⟩ ∈ before := by
  have hj : p.j < c.bitDepth := (mem_frameOrder.mp (h ▸ List.mem_append_right before List.mem_cons_self)).1
  have hoffset : (p.j * 16 + p.y) * w + p.x = before.length :=
    offset_of_getElem?_frameOrder (c := c) (by rw [h, List.getElem?_append_right le_rfl]; simp)
  have hlt : (p.j * 16 + y) * w + x < before.length := by
    rw [← hoffset]
    rcases hfirst with hrow | ⟨rfl, hcol⟩
    · have hrows : (p.j * 16 + y + 1) * w ≤ (p.j * 16 + p.y) * w := Nat.mul_le_mul_right w (by omega)
      rw [Nat.succ_mul] at hrows
      omega
    · omega
  have hq := getElem?_frameOrder c w hj hy hx
  rw [h, List.getElem?_append_left hlt] at hq
  exact List.mem_of_getElem? hq

/-- A frame that does not encode stops at the first pair of cells that is not written, in the order of the loops: at pixel A
if it holds no value, else at pixel B. -/
theorem encodeFrame_error {c : Config} {w : Nat} {fb : Memory} {cell : Coord} (h : encodeFrame c w fb = .error cell) :
    ∃ x y, x < w ∧ y < 16 ∧
      (∀ x' y', x' < w → y' < 16 → (y' < y ∨ (y' = y ∧ x' < x)) →
        fb.read ⟨x', y'⟩ ≠ none ∧ fb.read ⟨x', y' + 16⟩ ≠ none) ∧
      ((fb.read ⟨x, y⟩ = none ∧ cell = ⟨x, y⟩) ∨
       (fb.read ⟨x, y⟩ ≠ none ∧ fb.read ⟨x, y + 16⟩ = none ∧ cell = ⟨x, y + 16⟩)) := by
  obtain ⟨before, p, after, horder, hp, hbefore⟩ := packAll_eq_error.mp h
  obtain ⟨-, hy, hx⟩ := mem_frameOrder.mp (horder ▸ List.mem_append_right before List.mem_cons_self)
  refine ⟨p.x, p.y, hx, hy, fun x' y' hx' hy' hfirst => ?_, Config.half_eq c ▸ packAt_eq_error.mp hp⟩
  obtain ⟨byte, hbyte⟩ := hbefore _ (mem_before_of_frameOrder horder hx' hy' hfirst)
  obtain ⟨a, b, ha, hb, -⟩ := packAt_eq_ok.mp hbyte
  rw [Config.half_eq] at hb
  simp [ha, hb]

/-- The cell that a frame stops at lies in the frame and holds no value. -/
theorem read_of_encodeFrame_error {c : Config} {w : Nat} {fb : Memory} {cell : Coord}
    (h : encodeFrame c w fb = .error cell) : fb.read cell = none ∧ cell.x < w ∧ cell.y < 32 := by
  obtain ⟨x, y, hx, hy, -, ⟨hread, rfl⟩ | ⟨-, hread, rfl⟩⟩ := encodeFrame_error h
  · exact ⟨hread, hx, Nat.lt_trans hy (by decide)⟩
  · exact ⟨hread, hx, Nat.add_lt_add_right hy 16⟩

/-- A frame that does not encode is not complete (R130). -/
theorem not_complete_of_encodeFrame_error {c : Config} {w : Nat} {fb : Memory} {cell : Coord}
    (h : encodeFrame c w fb = .error cell) : ¬FrameComplete c w fb := by
  intro hcomplete
  obtain ⟨out, hout⟩ := encodeFrame_of_complete hcomplete
  cases h.symm.trans hout

/-- A frame that is not complete does not encode. -/
theorem encodeFrame_error_of_not_complete {c : Config} {w : Nat} {fb : Memory} (h : ¬FrameComplete c w fb) :
    ∃ cell, encodeFrame c w fb = .error cell := by
  cases hframe : encodeFrame c w fb with
  | error cell => exact ⟨cell, rfl⟩
  | ok out => exact absurd (complete_of_encodeFrame hframe) h

/-- ENCF past its checks stops at the cell that the frame stops at (R146). -/
theorem exec_encf_of_error {s : State} (hrun : s.flt = false) (hcap : s.frames.toNat < s.cfg.frameCap)
    {w : BitVec 16} (hw : w.toNat ≤ s.cfg.maxWidth) {cell : Coord} (h : encodeFrame s.cfg w.toNat s.fb = .error cell) :
    exec (.encf 32 w) s = .fault (.uninitialisedRead cell.x cell.y) := by
  rw [exec_encf_of_accepted hrun hcap hw, h]

/-- Settles O41: the positions before the one that stops the frame have packed, so their pairs of cells are written. -/
theorem encfStopsAtFirstUnwrittenCell : Obligations.EncfStopsAtFirstUnwrittenCell := by
  intro w s hrun hcap hw hincomplete
  obtain ⟨cell, hcell⟩ := encodeFrame_error_of_not_complete hincomplete
  have hstop := exec_encf_of_error hrun hcap hw hcell
  obtain ⟨x, y, hx, hy, hbefore, ⟨ha, rfl⟩ | ⟨ha, hb, rfl⟩⟩ := encodeFrame_error hcell
  · exact ⟨x, y, hx, hy, hbefore, .inl ⟨ha, hstop⟩⟩
  · exact ⟨x, y, hx, hy, hbefore, .inr ⟨ha, hb, hstop⟩⟩

/-! ### What a command and a step can answer -/

/-- An ENCF of this width passes its checks (R147) and stops at `cell`. -/
structure EncfStops (w : BitVec 16) (s : State) (cell : Coord) : Prop where
  running : s.flt = false
  below_cap : s.frames.toNat < s.cfg.frameCap
  width_le : w.toNat ≤ s.cfg.maxWidth
  frame_error : encodeFrame s.cfg w.toNat s.fb = .error cell

/-- Every command but ENCF completes. -/
theorem exec_completes_of_not_encf {i : Instr} (h : encfWidth i = none) (s : State) : ∃ t, exec i s = .next t := by
  cases hflt : s.flt with
  | true => exact ⟨s, exec_of_flt i hflt⟩
  | false =>
    cases i with
    | glut v => exact ⟨_, exec_glut_of_running hflt v⟩
    | bitx v m => exact ⟨_, exec_bitx_of_running hflt v m⟩
    | pmask j =>
      rcases Nat.lt_or_ge j.toNat s.cfg.bitDepth with hj | hj
      · exact ⟨_, exec_pmask_of_plane hflt hj⟩
      · exact ⟨_, exec_pmask_past_depth hflt hj⟩
    | pack m a b => exact ⟨_, exec_pack_of_running hflt m a b⟩
    | encf _ _ => cases h
    | commit => exact ⟨_, whenRunning_of_running _ hflt⟩
    | abort => exact ⟨_, whenRunning_of_running _ hflt⟩
    | fbwr x y p =>
      by_cases hcell : x.toNat < s.cfg.maxWidth ∧ y.toNat < s.cfg.panelHeight
      · exact ⟨_, exec_fbwr_of_cell hflt hcell.1 hcell.2 p⟩
      · exact ⟨_, exec_fbwr_outside hflt (by omega) p⟩

/-- ENCF completes, or stops past all its checks. -/
theorem exec_encf_completes_or_stops (h w : BitVec 16) (s : State) :
    (∃ t, exec (.encf h w) s = .next t) ∨
    ∃ cell, h = 32 ∧ EncfStops w s cell ∧ exec (.encf h w) s = .fault (.uninitialisedRead cell.x cell.y) := by
  cases hrun : s.flt with
  | true => exact .inl ⟨s, exec_of_flt _ hrun⟩
  | false =>
    rcases Nat.lt_or_ge s.frames.toNat s.cfg.frameCap with hcap | hcap
    · by_cases hheight : h = 32
      · subst hheight
        rcases Nat.lt_or_ge s.cfg.maxWidth w.toNat with hw | hw
        · exact .inl ⟨_, exec_encf_past_width hrun hcap hw⟩
        · cases hframe : encodeFrame s.cfg w.toNat s.fb with
          | ok out => exact .inl ⟨_, exec_encf_of_encodes hrun hcap hw hframe⟩
          | error cell => exact .inr ⟨cell, rfl, ⟨hrun, hcap, hw, hframe⟩, exec_encf_of_error hrun hcap hw hframe⟩
      · exact .inl ⟨_, exec_encf_of_other_height hrun hcap hheight w⟩
    · exact .inl ⟨s, exec_encf_at_cap hcap h w⟩

/-- A command completes, or is an ENCF of height 32 that stops (R146). -/
theorem exec_completes_or_stops (i : Instr) (s : State) :
    (∃ t, exec i s = .next t) ∨
    ∃ w cell, i = .encf 32 w ∧ EncfStops w s cell ∧ exec i s = .fault (.uninitialisedRead cell.x cell.y) := by
  cases hi : encfWidth i with
  | none => exact .inl (exec_completes_of_not_encf hi s)
  | some _ =>
    cases i with
    | encf h w =>
      exact (exec_encf_completes_or_stops h w s).imp_right fun ⟨cell, hh, hstop, hexec⟩ => ⟨w, cell, by rw [hh], hstop, hexec⟩
    | glut | bitx | pmask | pack | commit | abort | fbwr => cases hi

/-- An illegal word completes (R144, R149). -/
theorem execIllegal_completes (w : CmdWord) (s : State) : ∃ t, execIllegal w s = .next t := by
  cases hflt : s.flt with
  | true => exact ⟨_, whenRunning_of_flt _ hflt⟩
  | false => exact ⟨_, whenRunning_of_running _ hflt⟩

/-- A step completes, or runs an ENCF of height 32 that stops. -/
theorem step_completes_or_stops (s : State) :
    (∃ t, step s = .next t) ∨
    ∃ word rest w cell, s.hostIn = .command word :: rest ∧ decode word = .command (.encf 32 w) ∧
      EncfStops w { s with hostIn := rest } cell ∧ step s = .fault (.uninitialisedRead cell.x cell.y) := by
  match hin : s.hostIn with
  | [] => exact .inl ⟨s, idleBlockHoldsItsState s hin⟩
  | .reset :: rest => exact .inl ⟨_, step_of_reset hin⟩
  | .command word :: rest =>
    rw [step_of_command hin]
    cases hdec : decode word with
    | illegal why => exact .inl (execWord_of_illegal hdec _ ▸ execIllegal_completes word _)
    | command i =>
      rw [execWord_of_command hdec]
      refine (exec_completes_or_stops i _).imp_right ?_
      rintro ⟨w, cell, rfl, hstop, hexec⟩
      exact ⟨word, rest, w, cell, rfl, hdec, hstop, hexec⟩

/-- Settles O24: what a command and a step can answer is a next state or the stop of an ENCF, whose cell the frame names. -/
theorem onlyAnIncompleteFrameStops : Obligations.OnlyAnIncompleteFrameStops := by
  refine ⟨fun i s r h => ?_, fun i s r h => ?_, fun s r h => ?_, fun s r h => ?_⟩
  · rcases exec_completes_or_stops i s with ⟨t, ht⟩ | ⟨w, cell, rfl, hstop, hexec⟩
    · cases ht.symm.trans h
    · cases hexec.symm.trans h
      obtain ⟨hread, hx, hy⟩ := read_of_encodeFrame_error hstop.frame_error
      exact ⟨32, w, cell.x, cell.y, rfl, rfl, hread, hx, hy, hstop.running, hstop.below_cap, rfl, hstop.width_le⟩
  · rcases exec_completes_or_stops i s with ⟨t, ht⟩ | ⟨w, cell, -, -, hexec⟩
    · cases ht.symm.trans h
    · cases hexec.symm.trans h
  · rcases step_completes_or_stops s with ⟨t, ht⟩ | ⟨word, rest, w, cell, -, -, -, hstep⟩
    · cases ht.symm.trans h
    · cases hstep.symm.trans h
  · rcases step_completes_or_stops s with ⟨t, ht⟩ | ⟨word, rest, w, cell, hin, hdec, hstop, -⟩
    · cases ht.symm.trans h
    · exact ⟨word, rest, 32, w, hin, hdec, not_complete_of_encodeFrame_error hstop.frame_error⟩

end Sys2Proof.Machine
end

section
/-! PROOFS. The parameters are constants of the block: no command and no reset changes them (spec/70_reset_and_hazards.md R161). -/

namespace Sys2Proof.Machine

/-- No effect of a word, a fault entry included, changes the configuration (R21, R22). -/
theorem WordEffect.keeps_cfg {w : CmdWord} {s t : State} (he : WordEffect w s t) : t.cfg = s.cfg := by
  cases he with
  | nothing => rfl
  | result i v => exact State.writeResult_cfg s v
  | fault f => exact State.raise_cfg s f w
  | pixel x y p => exact State.writePixel_cfg s ⟨x.toNat, y.toNat⟩ p
  | frame h v out => exact State.appendFrame_cfg s out
  | deliver => exact State.deliver_cfg s

/-- Settles O15, by the effects of a step: taking the action from the port leaves the configuration, and so do the reset and every
effect of a word. -/
theorem configurationNeverChanges : Obligations.ConfigurationNeverChanges := by
  intro s t h
  rcases step_effect h with rfl | ⟨rest, -, rfl⟩ | ⟨w, rest, -, he⟩
  · rfl
  · exact State.applyReset_cfg { s with hostIn := rest }
  · exact he.keeps_cfg

end Sys2Proof.Machine
end
